-- ==== Sys2Proof/Word.lean ====
section
/-! DEFINITION. The value types of spec/00_scope.md rules R10 to R12: bytes, 32-bit dimensions, pixels, the magic constant. -/

namespace Sys2Proof

/-- A byte: 8 bits, an integer 0..255 (rules R10, R11). -/
abbrev Byte := BitVec 8

/-- A width or a height: 32 bits, unsigned (rules R6 `DIM_BITS`, R12). -/
abbrev Dim := BitVec 32

/-- A Pixel: four 8-bit unsigned channels. Equality is component-wise (rule R11). -/
structure Pixel where
  r : Byte
  g : Byte
  b : Byte
  a : Byte
deriving DecidableEq, Repr, Inhabited

/-- The four bytes at offsets 0..3 of a header, in stream order. They are no integer (rules R7, R47). -/
structure Magic where
  m0 : Byte
  m1 : Byte
  m2 : Byte
  m3 : Byte
deriving DecidableEq, Repr, Inhabited

end Sys2Proof
end

