-- ==== Sys2Proof/Config.lean ====
section
/-! DEFINITION. The constants of rule R6, the parameters of rule R7, and the free values (registers that rule R34 and rule
R186 say hold no value). -/

namespace Sys2Proof

/-- The parameters the source leaves open (rule R7). `MAX_PIXELS` is decided "none" and so has no field. -/
structure Config where
  /-- `MAGIC`: OPEN in the spec (D2). No statement may assume a value. -/
  magic : Magic
  /-- `ENC_DELTA_WRAP`: false in this spec; rule R136 gives the other setting. -/
  encDeltaWrap : Bool
deriving DecidableEq, Repr, Inhabited

/-- `HEADER_LEN` (rule R6). -/
def Config.headerLen : Nat := 14

/-- `TRAILER_LEN` (rule R6). -/
def Config.trailerLen : Nat := 8

/-- `TRAILER` (rules R6, R62): seven zero bytes, then one byte 1. -/
def Config.trailer : List Byte := [0x00, 0x00, 0x00, 0x00, 0x00, 0x00, 0x00, 0x01]

/-- `MAX_RUN` (rule R6): the longest run one RUN chunk carries. -/
def Config.maxRun : Nat := 62

/-- `PREV_INIT` (rule R6): the previous pixel at the start of a pass. -/
def Config.prevInit : Pixel := ⟨0, 0, 0, 255⟩

/-- `ZERO_PIXEL` (rule R6): the initial content of every cache slot. Not equal to `PREV_INIT` (rule R35). -/
def Config.zeroPixel : Pixel := ⟨0, 0, 0, 0⟩

/-- PRESUMED (log entry 2): the example instantiation of `MAGIC` that rule R7 uses in its vectors. -/
def Config.exampleMagic : Magic := ⟨0x71, 0x6F, 0x69, 0x66⟩

/-! Free values (log entry 3). Nothing in Lean gives them a value. -/

/-- Which free values are drawn next. Instances share nothing (rule R204), so each draws its own; and each event at which
registers are left without a value draws fresh ones. -/
structure FreeIndex where
  /-- The place of the instance in its set: the model's own, as instances have no identifiers (rule R204, log entry 16). -/
  origin : Nat
  /-- How many such events this instance has had. -/
  events : Nat
deriving DecidableEq, Repr, Inhabited

/-- The index after one more event. -/
def FreeIndex.next (i : FreeIndex) : FreeIndex := { i with events := i.events + 1 }

/-- What slot `i` of the cache holds after the event (rules R34, R186). -/
opaque Config.freeSlot : FreeIndex → Nat → Pixel

/-- What `PREV` holds after the event. -/
opaque Config.freePrev : FreeIndex → Pixel

/-- What `W` (0) or `H` (1) holds after the event. -/
opaque Config.freeDim : FreeIndex → Nat → Dim

/-- What `CH` (0) or `CS` (1) holds after the event. -/
opaque Config.freeByte : FreeIndex → Nat → Byte

/-- What `RUN` (0), `PIXCNT` (1), `IPOS` (2) or `OPOS` (3) holds after the event. -/
opaque Config.freeCount : FreeIndex → Nat → Nat

end Sys2Proof
end

