-- ==== Sys2Proof/Machine/Memory.lean ====
section
/-! DEFINITION. A byte-stream space (spec/20_memory.md rule R45(a)) as plain data: the bytes that exist, by offset. -/

namespace Sys2Proof.Machine

/-- The bytes of one stream, as (offset, byte) pairs with offsets strictly rising. An unlisted offset holds no byte: it lies
past the end of the stream, and a read that needs it is a short read (rule R41, log entry 6). -/
abbrev Memory := List Host.Cell

/-- The byte at an offset, if the stream has one there. -/
def Memory.read : Memory → Nat → Option Byte
  | [], _ => none
  | (k, b) :: m, a => if k = a then some b else Memory.read m a

/-- Put a byte at an offset: how the outside world places bytes. The block itself only appends (rule R44). -/
def Memory.write : Memory → Nat → Byte → Memory
  | [], a, v => [(a, v)]
  | (k, b) :: m, a, v =>
    if a < k then (a, v) :: (k, b) :: m
    else if a = k then (a, v) :: m
    else (k, b) :: Memory.write m a v

/-- Put bytes at an offset and the ones after it. -/
def Memory.writeBytes : Memory → Nat → List Byte → Memory
  | m, _, [] => m
  | m, a, v :: vs => Memory.writeBytes (Memory.write m a v) (a + 1) vs

/-- `LEN` (rule R41): one past the highest offset that holds a byte. -/
def Memory.len : Memory → Nat
  | [] => 0
  | [(k, _)] => k + 1
  | _ :: c :: m => Memory.len (c :: m)

/-- Bytes at consecutive offsets from `a` on. -/
def Memory.cells : Nat → List Byte → Memory
  | _, [] => []
  | a, v :: vs => (a, v) :: Memory.cells (a + 1) vs

/-- Append bytes after the last one, in the order given (rule R44). -/
def Memory.append (m : Memory) (bs : List Byte) : Memory := m ++ Memory.cells (Memory.len m) bs

/-- The stream whose bytes these are, offset 0 first. -/
def Memory.ofBytes (bs : List Byte) : Memory := Memory.cells 0 bs

/-- The bytes of a stream in offset order. -/
def Memory.bytes (m : Memory) : List Byte := m.map Prod.snd

/-- The bytes from `a` on, at most `n` of them, up to the first offset that holds none. -/
def Memory.window (m : Memory) (a : Nat) : Nat → List Byte
  | 0 => []
  | n + 1 =>
    match Memory.read m a with
    | none => []
    | some b => b :: Memory.window m (a + 1) n

/-- `StreamRead(pos, n)` (rules R13, R43): the `n` bytes at `pos`, defined only for `pos + n ≤ LEN`, a read of no bytes too,
and (what a hole adds: log entry 6) only when all of them exist. -/
def Memory.streamRead (m : Memory) (pos n : Nat) : Option (List Byte) :=
  let bs := Memory.window m pos n
  if pos + n ≤ Memory.len m ∧ bs.length = n then some bs else none

/-- The offsets rise strictly. -/
def Memory.rising : List Nat → Bool
  | [] => true
  | [_] => true
  | a :: b :: l => decide (a < b) && Memory.rising (b :: l)

/-- The canonical form: offsets strictly rising, so that equal streams are equal lists. (No byte equals what an unlisted
offset reads as, since that is no byte.) -/
def Memory.wf (m : Memory) : Bool := Memory.rising (m.map Prod.fst)

/-- The stream has no holes: its offsets are exactly 0 .. LEN-1 (rule R41). -/
def Memory.dense (m : Memory) : Bool := m.map Prod.fst == List.range m.length

end Sys2Proof.Machine
end

