-- ==== Sys2Proof/Machine/State.lean ====
section
/-! DEFINITION. The state of one instance (spec/10_state.md), its environment, why a step can stop, and the state after reset. -/

namespace Sys2Proof.Machine

/-- `PHASE` (rule R29). -/
inductive Phase where
  /-- After reset; no pass has been started. -/
  | idle
  /-- An encode pass is in progress. -/
  | enc
  /-- A decode pass is in progress. -/
  | dec
  /-- The last pass completed without error. -/
  | done
  /-- The last decode pass raised an error; `ERR` says which. -/
  | failed
deriving DecidableEq, Repr

/-- `ERR` (rule R30). -/
inductive Err where
  | none
  /-- `FormatError` (rule R181). -/
  | format
  /-- `TruncatedStreamError` (rule R182). -/
  | truncated
  /-- The internal invariant violation (rule R184): reserved, written by nothing. -/
  | internal
deriving DecidableEq, Repr

/-- `DIAG` (rule R31): two sticky flags. -/
structure Diag where
  /-- Bit 0. -/
  endBad : Bool
  /-- Bit 1. -/
  runOverrun : Bool
deriving DecidableEq, Repr

/-- The 64 slots of the Color Cache (rule R21). -/
abbrev Cache := Vector Pixel 64

/-- The seven commands (rule R150). The arguments of `ENC_START` are integers, legal or not (rule R153). -/
inductive Command where
  | reset
  | encStart (w h ch cs : Nat)
  | encPixel (p : Pixel)
  | encEnd
  | decStart
  | decChunk
  | decEnd
deriving DecidableEq, Repr

/-- What the host can do to the block: issue a command, or present an input sequence `IN` (rules R41, R214). -/
inductive HostMove where
  | issue (c : Command)
  | present (bs : List Byte)
deriving DecidableEq, Repr

/-- The state of one instance, and the environment its step reads and appends to (rules R20, R32). -/
structure State where
  /-- `CACHE[0..63]` (rule R21). -/
  cache : Cache
  /-- `PREV` (rule R22). -/
  prev : Pixel
  /-- `RUN` (rule R23): pixels consumed by the encoder and not yet written as a chunk. -/
  run : Nat
  /-- `W` (rule R24). -/
  w : Dim
  /-- `H` (rule R24). -/
  h : Dim
  /-- `CH` (rule R24). -/
  ch : Byte
  /-- `CS` (rule R24). -/
  cs : Byte
  /-- `PIXCNT` (rule R25): pixels consumed or produced in this pass. -/
  pixcnt : Nat
  /-- `IPOS` (rule R27): the offset of the next byte of `IN`. -/
  ipos : Nat
  /-- `OPOS` (rule R28): bytes emitted in this pass. -/
  opos : Nat
  /-- `PHASE` (rule R29). -/
  phase : Phase
  /-- `ERR` (rule R30). -/
  err : Err
  /-- `DIAG` (rule R31). -/
  diag : Diag
  /-- `IN`, the decoder's input (rule R41). -/
  input : Memory
  /-- `OUT`, the encoder's output (rule R44). -/
  out : Memory
  /-- `POUT`, the decoder's output (rule R46). -/
  pout : List Pixel
  /-- What the host will do, in order (rules R9, R52; log entry 4). `PIN` is the pixels of the `ENC_PIXEL`s in it (rule R42). -/
  moves : List HostMove
  /-- The parameters (rules R7, R32). No step writes them (log entry 2). -/
  cfg : Config
  /-- The model's own: which free values are drawn next, by this instance at its next event that leaves registers without a
  value (log entries 3, 16). -/
  free : FreeIndex
deriving DecidableEq, Repr

/-- The registers the host may read (rule R36). -/
structure HostView where
  phase : Phase
  err : Err
  diag : Diag
  w : Dim
  h : Dim
  ch : Byte
  cs : Byte
  pixcnt : Nat
  ipos : Nat
  opos : Nat
deriving DecidableEq, Repr

/-- Why the machine stops with a fault. The block's errors are no faults: `raise` is a next state (rule R186). -/
inductive Fault where
  /-- The "internal invariant violation (fatal, not user-recoverable)" of rule R184. Raised by nothing: `classify` is total.
  Safe: no step ends in it. -/
  | internalInvariant
deriving DecidableEq, Repr

/-- Why the machine takes no step. -/
inductive Refusal where
  /-- An arm of `exec` without a meaning. Safe: nothing can be proved of the instruction. -/
  | notModelled (mnemonic : String)
  /-- The command is not admitted in the present state, so it has no step (rules R151, R152). Raised by every command but
  `RESET`, and by the items a decode command executes. Safe: the model has fewer runs than a misused block. -/
  | notAdmitted (c : Command)
  /-- `ENC_START` with arguments that are not well-formed (rule R153, D10). Safe, as above. -/
  | illFormedArguments
  /-- The host changes `IN` during a decode pass: it has no such move (rules R41, R55, U13). Raised by `present`. Safe, as above. -/
  | inputInUse
deriving DecidableEq, Repr

/-- `NPIX = W x H`, exact (rule R25). It is no register. -/
def State.npix (s : State) : Nat := s.w.toNat * s.h.toNat

/-- The machine right after reset. `PHASE`, `ERR` and `DIAG` are rule R34's; the registers that rule R34 leaves without a
value hold what log entry 1 names; nothing has been presented, emitted or issued yet. -/
def State.reset : State where
  cache := Vector.replicate 64 Config.zeroPixel
  prev := Config.prevInit
  run := 0
  w := 0
  h := 0
  ch := 0
  cs := 0
  pixcnt := 0
  ipos := 0
  opos := 0
  phase := .idle
  err := .none
  diag := ⟨false, false⟩
  input := []
  out := []
  pout := []
  moves := []
  cfg := ⟨Config.exampleMagic, false⟩
  free := ⟨0, 0⟩

end Sys2Proof.Machine
end

