-- ==== Sys2Proof/Machine/Flags.lean ====
section
/-! DEFINITION. Status: `DIAG`, the numeric codes of `PHASE`, `ERR`, `DIAG`, and what the host can read. No operation has
any other flag (spec/41_chunk_decode.md rule R112). -/

namespace Sys2Proof.Machine

/-- Both flags 0 (rules R31, R34). -/
def Diag.clear : Diag := ⟨false, false⟩

/-- `DIAG.END_BAD <- 1` (rule R161). -/
def State.setEndBad (s : State) : State := { s with diag := { s.diag with endBad := true } }

/-- `DIAG.RUN_OVERRUN <- 1` if the chunk asks for more pixels than remain (rule R107). -/
def State.flagOverrun (asked remaining : Nat) (s : State) : State :=
  if remaining < asked then { s with diag := { s.diag with runOverrun := true } } else s

/-- The codes of `PHASE` (rule R29, D12). -/
def Phase.code : Phase → Nat
  | .idle => 0
  | .enc => 1
  | .dec => 2
  | .done => 3
  | .failed => 4

/-- The codes of `ERR` (rule R30, D12). -/
def Err.code : Err → Nat
  | .none => 0
  | .format => 1
  | .truncated => 2
  | .internal => 3

/-- `DIAG` as a number: bit 0 `END_BAD`, bit 1 `RUN_OVERRUN` (rule R31, D12). -/
def Diag.code (d : Diag) : Nat := d.endBad.toNat + 2 * d.runOverrun.toNat

/-- What the host may read: everything but `CACHE`, `PREV`, `RUN` (rule R36). -/
def State.hostView (s : State) : HostView where
  phase := s.phase
  err := s.err
  diag := s.diag
  w := s.w
  h := s.h
  ch := s.ch
  cs := s.cs
  pixcnt := s.pixcnt
  ipos := s.ipos
  opos := s.opos

end Sys2Proof.Machine
end

