-- ==== Sys2Proof/Syntax.lean ====
section
/-! DEFINITION. The items of a stream (spec/30_encoding.md rule R77), one constructor per row of the opcode table. -/

namespace Sys2Proof

/-- One item of a stream: the six chunks and the two framing items. Operand order is rule R77's. -/
inductive Instr where
  /-- `RGB r, g, b` (rule R72). -/
  | rgb (r g b : Byte)
  /-- `RGBA r, g, b, a` (rule R73). -/
  | rgba (r g b a : Byte)
  /-- `INDEX i` (rule R67). An index outside 0..63 cannot be formed (rule R92). -/
  | index (i : Fin 64)
  /-- `DIFF dr, dg, db` (rule R68): signed deltas, not their biased fields. -/
  | diff (dr dg db : Int)
  /-- `LUMA dg, drg, dbg` (rule R69): `drg = dr - dg`, `dbg = db - dg`. -/
  | luma (dg drg dbg : Int)
  /-- `RUN n` (rule R71): the run length, not its payload. -/
  | run (n : Nat)
  /-- `HEADER w, h, ch, cs` (rule R61) with the four magic bytes the header carries (log entry 8). -/
  | header (magic : Magic) (w h : Dim) (ch cs : Byte)
  /-- `END` (rule R62). -/
  | endMarker
deriving DecidableEq, Repr

end Sys2Proof
end

