-- ==== Sys2Proof/WellFormed.lean ====
section
/-! DEFINITION. Which items have an encoding (rule R77's operand ranges). -/

namespace Sys2Proof

/-- `x` is in `lo..hi`, both ends included (rule R10). -/
def inRange (lo hi x : Int) : Bool := decide (lo ≤ x) && decide (x ≤ hi)

/-- `CH` is in `CH_SET = {3, 4}` (rules R6, R61). -/
def legalChannels (ch : Byte) : Bool := ch == 3 || ch == 4

/-- `CS` is in `CS_SET = {0, 1}` (rules R6, R61). -/
def legalColorspace (cs : Byte) : Bool := cs == 0 || cs == 1

/-- The operands are those rule R77 allows. Which magic bytes a header must carry is a parameter of the machine, not of the
syntax, and is checked when the header is executed (rule R159). -/
def Instr.wf : Instr → Bool
  | .rgb _ _ _ => true
  | .rgba _ _ _ _ => true
  | .index _ => true
  | .diff dr dg db => inRange (-2) 1 dr && inRange (-2) 1 dg && inRange (-2) 1 db
  | .luma dg drg dbg => inRange (-32) 31 dg && inRange (-8) 7 drg && inRange (-8) 7 dbg
  | .run n => decide (1 ≤ n) && decide (n ≤ 62)
  | .header _ _ _ ch cs => legalChannels ch && legalColorspace cs
  | .endMarker => true

end Sys2Proof
end

