-- ==== Sys2Proof/Decode.lean ====
section
/-! DEFINITION. From bytes to items and back (spec/30_encoding.md). -/

namespace Sys2Proof

/-! ## Bit fields -/

/-- `b[hi:lo]`: the unsigned integer formed by bits `hi` down to `lo` of `b` (rule R10). -/
def bits (b : Byte) (hi lo : Nat) : Nat := b.toNat / 2 ^ lo % 2 ^ (hi - lo + 1)

/-- `value = field - bias` (rule R70). -/
def unbias (field bias : Nat) : Int := (field : Int) - (bias : Int)

/-- `from_be32` (rule R13): the most significant byte first. -/
def fromBe32 (b0 b1 b2 b3 : Byte) : Dim :=
  BitVec.ofNat 32 (b0.toNat * 2 ^ 24 + b1.toNat * 2 ^ 16 + b2.toNat * 2 ^ 8 + b3.toNat)

/-- `be32` (rules R13, R47): the most significant byte at the lowest offset. -/
def be32 (v : Dim) : List Byte :=
  [BitVec.ofNat 8 (v.toNat / 2 ^ 24), BitVec.ofNat 8 (v.toNat / 2 ^ 16),
   BitVec.ofNat 8 (v.toNat / 2 ^ 8), BitVec.ofNat 8 v.toNat]

/-! ## Tag decoding -/

/-- The six operations of rule R63. -/
inductive ChunkOp where
  | rgb | rgba | index | diff | luma | run
deriving DecidableEq, Repr

/-- `classify` (rule R64): the literal bytes are tested before the top two bits. Total. -/
def classify (b0 : Byte) : ChunkOp :=
  if b0 = 0xFE then .rgb
  else if b0 = 0xFF then .rgba
  else if bits b0 7 6 = 0b00 then .index
  else if bits b0 7 6 = 0b01 then .diff
  else if bits b0 7 6 = 0b10 then .luma
  else .run

/-- The length of a chunk, which its operation alone fixes (rule R66). -/
def ChunkOp.length : ChunkOp → Nat
  | .index => 1
  | .diff => 1
  | .run => 1
  | .luma => 2
  | .rgb => 4
  | .rgba => 5

/-! ## Decoding -/

/-- Why bytes are no item. Every first byte is legal (rule R74), so there is one reason only. -/
inductive DecodeError where
  /-- Fewer bytes are there than the item needs (rules R41, R182). -/
  | shortRead
deriving DecidableEq, Repr

/-- What decoding answers: an item and the bytes after it, or a rejection by name. -/
inductive Decoded where
  | item (i : Instr) (rest : List Byte)
  | rejected (e : DecodeError)
deriving DecidableEq, Repr

/-- Where in the stream an item is read. HEADER and END are recognised by position only (rules R50, R76), and no byte tells
them from chunks (log entry 8). -/
inductive Position where
  | header | chunk | trailer
deriving DecidableEq, Repr

/-- INDEX: `b0[5:0]` (rules R67, R80). -/
def decodeIndex (b0 : Byte) : Instr := .index (Fin.ofNat 64 (bits b0 5 0))

/-- DIFF: three 2-bit fields, each biased +2 (rules R68, R80). -/
def decodeDiff (b0 : Byte) : Instr :=
  .diff (unbias (bits b0 5 4) 2) (unbias (bits b0 3 2) 2) (unbias (bits b0 1 0) 2)

/-- LUMA: a 6-bit field biased +32, then two 4-bit fields biased +8, the red one in the high half (rules R69, R80). -/
def decodeLuma (b0 b1 : Byte) : Instr :=
  .luma (unbias (bits b0 5 0) 32) (unbias (bits b1 7 4) 8) (unbias (bits b1 3 0) 8)

/-- RUN: `b0[5:0] + 1` (rules R71, R80). -/
def decodeRun (b0 : Byte) : Instr := .run (bits b0 5 0 + 1)

/-- One chunk from the front of a list of bytes (rules R64, R66, R80). -/
def decodeChunk : List Byte → Decoded
  | [] => .rejected .shortRead
  | b0 :: rest =>
    match classify b0 with
    | .index => .item (decodeIndex b0) rest
    | .diff => .item (decodeDiff b0) rest
    | .run => .item (decodeRun b0) rest
    | .luma =>
      match rest with
      | b1 :: rest => .item (decodeLuma b0 b1) rest
      | [] => .rejected .shortRead
    | .rgb =>
      match rest with
      | r :: g :: b :: rest => .item (.rgb r g b) rest
      | _ => .rejected .shortRead
    | .rgba =>
      match rest with
      | r :: g :: b :: a :: rest => .item (.rgba r g b a) rest
      | _ => .rejected .shortRead

/-- The 14-byte header (rule R61), read as it stands; its validation is the meaning's (rule R159). -/
def decodeHeader : List Byte → Decoded
  | m0 :: m1 :: m2 :: m3 :: w0 :: w1 :: w2 :: w3 :: h0 :: h1 :: h2 :: h3 :: ch :: cs :: rest =>
    .item (.header ⟨m0, m1, m2, m3⟩ (fromBe32 w0 w1 w2 w3) (fromBe32 h0 h1 h2 h3) ch cs) rest
  | _ => .rejected .shortRead

/-- The item at a position. After the last chunk stands END whatever the bytes are: a missing or wrong trailer is its
meaning's matter, a diagnostic and not an error (rules R76, R161). -/
def decode (p : Position) (bs : List Byte) : Decoded :=
  match p with
  | .header => decodeHeader bs
  | .chunk => decodeChunk bs
  | .trailer => .item .endMarker (bs.drop Config.trailerLen)

/-! ## Encoding -/

/-- The bytes of an item, by the formulas of rules R61, R62, R67 to R73. -/
def encode : Instr → List Byte
  | .rgb r g b => [0xFE, r, g, b]
  | .rgba r g b a => [0xFF, r, g, b, a]
  | .index i => [BitVec.ofNat 8 i.val]
  | .diff dr dg db => [BitVec.ofInt 8 (0x40 + (dr + 2) * 16 + (dg + 2) * 4 + (db + 2))]
  | .luma dg drg dbg =>
    [BitVec.ofInt 8 (0x80 + (dg + 32)), BitVec.ofInt 8 ((drg + 8) * 16 + (dbg + 8))]
  | .run n => [BitVec.ofInt 8 (0xC0 + ((n : Int) - 1))]
  | .header m w h ch cs => [m.m0, m.m1, m.m2, m.m3] ++ be32 w ++ be32 h ++ [ch, cs]
  | .endMarker => Config.trailer

/-- Where an item stands in a stream (rule R60). -/
def Instr.position : Instr → Position
  | .rgb _ _ _ => .chunk
  | .rgba _ _ _ _ => .chunk
  | .index _ => .chunk
  | .diff _ _ _ => .chunk
  | .luma _ _ _ => .chunk
  | .run _ => .chunk
  | .header _ _ _ _ _ => .header
  | .endMarker => .trailer

/-- The length of an item in bytes (rules R61, R62, R66). -/
def Instr.length : Instr → Nat
  | .rgb _ _ _ => 4
  | .rgba _ _ _ _ => 5
  | .index _ => 1
  | .diff _ _ _ => 1
  | .luma _ _ _ => 2
  | .run _ => 1
  | .header _ _ _ _ _ => 14
  | .endMarker => 8

/-! ## Words of the opcode table -/

/-- The first `k` bytes of a number, the least significant first. -/
def wordBytes (k w : Nat) : List Byte := (List.range k).map fun j => BitVec.ofNat 8 (w / 256 ^ j)

/-- Which position a table row stands for: its 112-bit row is HEADER, its 64-bit row END, every other a chunk
(log entry 10). -/
def tablePosition (nbits : Nat) : Position :=
  if nbits = 112 then .header else if nbits = 64 then .trailer else .chunk

/-- The bytes of a table word: its bits, then zeros up to the longest item. -/
def tableBytes (nbits w : Nat) : List Byte := wordBytes Config.headerLen (w % 2 ^ nbits)

/-- The instruction the decoder reads from a table word. -/
def decodeTableWord (nbits w : Nat) : Option Instr :=
  match decode (tablePosition nbits) (tableBytes nbits w) with
  | .item i _ => some i
  | .rejected _ => none

end Sys2Proof
end

