-- ==== Sys2Proof/Machine/Operands.lean ====
section
/-! DEFINITION. The pixel arithmetic: the pixel a chunk describes (spec/41_chunk_decode.md rules R104 to R110), and the
deltas and legality predicates of the encoder (spec/42_encoder.md rules R121 to R129, R136). -/

namespace Sys2Proof.Machine

/-! ## Decoder -/

/-- A channel plus a signed delta, modulo 256 (rule R110). -/
def addDelta (c : Byte) (d : Int) : Byte := BitVec.ofInt 8 ((c.toNat : Int) + d)

/-- The pixel of DIFF (rule R104). -/
def diffPixel (prev : Pixel) (dr dg db : Int) : Pixel :=
  ⟨addDelta prev.r dr, addDelta prev.g dg, addDelta prev.b db, prev.a⟩

/-- The pixel of LUMA (rule R105): `dr = dg + drg`, `db = dg + dbg`, exact. -/
def lumaPixel (prev : Pixel) (dg drg dbg : Int) : Pixel :=
  ⟨addDelta prev.r (dg + drg), addDelta prev.g dg, addDelta prev.b (dg + dbg), prev.a⟩

/-- The pixel of RGB (rule R108): alpha unchanged from the previous pixel. -/
def rgbPixel (prev : Pixel) (r g b : Byte) : Pixel := ⟨r, g, b, prev.a⟩

/-- The pixel of RGBA (rule R109). -/
def rgbaPixel (r g b a : Byte) : Pixel := ⟨r, g, b, a⟩

/-! ## Encoder -/

/-- Alpha forcing (rule R121): in a 3-channel pass the alpha supplied is replaced by 255. -/
def forceAlpha (ch : Byte) (p : Pixel) : Pixel := if ch = 3 then { p with a := 255 } else p

/-- `sext8` (rule R13), for `v` in 0..255. -/
def sext8 (v : Int) : Int := if v < 128 then v else v - 256

/-- A delta as the parameter has it: plain (rule R125), or reduced to -128..127 (rule R136). -/
def reduceDelta (wrap : Bool) (d : Int) : Int := if wrap then sext8 (d % 256) else d

/-- The five deltas of rule R125. -/
structure Deltas where
  dr : Int
  dg : Int
  db : Int
  drg : Int
  dbg : Int
deriving DecidableEq, Repr

/-- The difference of two channels (rules R125, R136). -/
def channelDelta (wrap : Bool) (c prev : Byte) : Int := reduceDelta wrap ((c.toNat : Int) - (prev.toNat : Int))

/-- The deltas from the previous pixel to `p` (rules R125, R136). -/
def pixelDeltas (wrap : Bool) (prev p : Pixel) : Deltas :=
  let dr := channelDelta wrap p.r prev.r
  let dg := channelDelta wrap p.g prev.g
  let db := channelDelta wrap p.b prev.b
  ⟨dr, dg, db, reduceDelta wrap (dr - dg), reduceDelta wrap (db - dg)⟩

/-- The range part of DIFF's predicate (rule R126). -/
def Deltas.fitDiff (d : Deltas) : Bool := inRange (-2) 1 d.dr && inRange (-2) 1 d.dg && inRange (-2) 1 d.db

/-- The range part of LUMA's predicate (rule R127). -/
def Deltas.fitLuma (d : Deltas) : Bool := inRange (-32) 31 d.dg && inRange (-8) 7 d.drg && inRange (-8) 7 d.dbg

/-- The priority chain for a pixel that differs from `PREV` (rules R124 to R130): the first legal operation in the mandated
order. `slot` is the content of the one slot the pixel may hit, slot `i`. -/
def selectChunk (wrap : Bool) (i : Fin 64) (slot prev p : Pixel) : Instr :=
  let d := pixelDeltas wrap prev p
  if slot = p then .index i
  else if p.a = prev.a ∧ d.fitDiff then .diff d.dr d.dg d.db
  else if p.a = prev.a ∧ d.fitLuma then .luma d.dg d.drg d.dbg
  else if p.a = prev.a then .rgb p.r p.g p.b
  else .rgba p.r p.g p.b p.a

end Sys2Proof.Machine
end

