-- ==== Sys2Proof/Machine/Ops.lean ====
section
/-! DEFINITION. The shared operations: the cache primitives, the streams, the commit of a pixel, the start of a pass, raising
an error, refusing a command. -/

namespace Sys2Proof.Machine

/-- What a command answers. -/
abbrev Result := Host.Outcome State Fault Refusal

/-! ## The Color Cache (spec/40_color_cache.md) -/

/-- `cache_index` (rule R90): the sum is exact, then reduced modulo 64. -/
def cacheIndex (p : Pixel) : Fin 64 :=
  Fin.ofNat 64 (3 * p.r.toNat + 5 * p.g.toNat + 7 * p.b.toNat + 11 * p.a.toNat)

/-- `lookup` (rule R92). -/
def lookup (cache : Cache) (i : Fin 64) : Pixel := cache[i]

/-- `update` (rule R93): one slot is overwritten, whatever it held. -/
def update (cache : Cache) (p : Pixel) : Cache := cache.set (cacheIndex p) p

/-- All 64 slots the zero pixel (rule R96). -/
def freshCache : Cache := Vector.replicate 64 Config.zeroPixel

/-! ## The streams (spec/20_memory.md) -/

/-- `Emit` (rules R13, R44): append to `OUT`, count in `OPOS`. -/
def State.emit (bs : List Byte) (s : State) : State :=
  { s with out := s.out.append bs, opos := s.opos + bs.length }

/-- The part of a pixel's commit that both directions share (rules R94, R132): `update`, `PREV`, `PIXCNT`. -/
def State.consume (p : Pixel) (s : State) : State :=
  { s with cache := update s.cache p, prev := p, pixcnt := s.pixcnt + 1 }

/-- `commit` (rule R102): `PixOut`, then as above. -/
def State.commit (p : Pixel) (s : State) : State := { s.consume p with pout := s.pout ++ [p] }

/-- Commit pixels one after the other (rule R102). -/
def State.commitAll : List Pixel → State → State
  | [], s => s
  | p :: ps, s => State.commitAll ps (s.commit p)

/-- `IPOS <- IPOS + n` (rules R27, R101). -/
def State.advance (n : Nat) (s : State) : State := { s with ipos := s.ipos + n }

/-! ## Admission (rule R151) -/

/-- No pass is in progress: the phases in which a pass may be started. -/
def State.startAdmitted (s : State) : Bool := s.phase == .idle || s.phase == .done || s.phase == .failed

/-- `ENC`, `PIXCNT < NPIX`. -/
def State.pixelAdmitted (s : State) : Bool := s.phase == .enc && decide (s.pixcnt < s.npix)

/-- `ENC`, `PIXCNT = NPIX`. -/
def State.encEndAdmitted (s : State) : Bool := s.phase == .enc && s.pixcnt == s.npix

/-- `DEC`, `PIXCNT < NPIX`. -/
def State.chunkAdmitted (s : State) : Bool := s.phase == .dec && decide (s.pixcnt < s.npix)

/-- `DEC`, `PIXCNT = NPIX`. -/
def State.decEndAdmitted (s : State) : Bool := s.phase == .dec && s.pixcnt == s.npix

/-- `refuse` (rule R152): a command that is not admitted has no step. -/
def require (admitted : Bool) (c : Command) (r : Result) : Result :=
  if admitted then r else .refused (.notAdmitted c)

/-! ## The start of a pass (rules R34, R153, R158) -/

/-- The registers both STARTs initialise, with the header fields of the pass. -/
def State.beginPass (w h : Dim) (ch cs : Byte) (s : State) : State :=
  { s with
    w := w, h := h, ch := ch, cs := cs,
    cache := freshCache, prev := Config.prevInit, run := 0, pixcnt := 0,
    err := .none, diag := Diag.clear }

/-- Every register that rule R34 and rule R186 say holds no value gets a free value (log entry 3). -/
def State.clobber (s : State) : State :=
  { s with
    cache := (Vector.range 64).map (Config.freeSlot s.free),
    prev := Config.freePrev s.free,
    run := Config.freeCount s.free 0,
    w := Config.freeDim s.free 0,
    h := Config.freeDim s.free 1,
    ch := Config.freeByte s.free 0,
    cs := Config.freeByte s.free 1,
    pixcnt := Config.freeCount s.free 1,
    ipos := Config.freeCount s.free 2,
    opos := Config.freeCount s.free 3,
    free := s.free.next }

/-! ## Taking an error (rule R186) -/

/-- `raise E`: `ERR <- code(E)`, `PHASE <- FAILED`, nothing else. There is no handler, no saved position and no return
(rules R186, R189). -/
def State.raise (e : Err) (s : State) : State := { s with err := e, phase := .failed }

/-- `raise E` in `DEC_START`: `DIAG` has been cleared and `POUT` emptied, and no other register holds a value. -/
def State.raiseAtStart (e : Err) (s : State) : State :=
  State.raise e { s.clobber with diag := Diag.clear, pout := [] }

end Sys2Proof.Machine
end

