-- ==== Sys2Proof/Machine/Chunks.lean ====
section
/-! DEFINITION. What the six chunk operations do when the decoder executes them (spec/41_chunk_decode.md). -/

namespace Sys2Proof.Machine

/-- Execute a chunk of `n` bytes that produces the pixels `ps` (rules R100 to R102): commit each in turn, advance `IPOS`. -/
def runChunk (n : Nat) (ps : List Pixel) (s : State) : Result :=
  require s.chunkAdmitted .decChunk (.next ((s.commitAll ps).advance n))

/-- INDEX (rule R103). -/
def execIndex (i : Fin 64) (s : State) : Result := runChunk 1 [lookup s.cache i] s

/-- DIFF (rule R104). -/
def execDiff (dr dg db : Int) (s : State) : Result := runChunk 1 [diffPixel s.prev dr dg db] s

/-- LUMA (rule R105). -/
def execLuma (dg drg dbg : Int) (s : State) : Result := runChunk 2 [lumaPixel s.prev dg drg dbg] s

/-- RUN (rules R106, R107): no more pixels than remain, and a flag if the chunk asks for more. -/
def execRun (n : Nat) (s : State) : Result :=
  let remaining := s.npix - s.pixcnt
  runChunk 1 (List.replicate (min n remaining) s.prev) (s.flagOverrun n remaining)

/-- RGB (rule R108). -/
def execRgb (r g b : Byte) (s : State) : Result := runChunk 4 [rgbPixel s.prev r g b] s

/-- RGBA (rule R109). -/
def execRgba (r g b a : Byte) (s : State) : Result := runChunk 5 [rgbaPixel r g b a] s

end Sys2Proof.Machine
end

