-- ==== Sys2Proof/Machine/Framing.lean ====
section
/-! DEFINITION. The two framing items when the decoder executes them, and the serializer of the encoder's side
(spec/43_framing_and_pass_control.md). -/

namespace Sys2Proof.Machine

/-- The header is accepted (rule R158): the pass starts, `POUT` is empty, the body is at offset 14. -/
def State.beginDecode (w h : Dim) (ch cs : Byte) (s : State) : State :=
  { s.beginPass w h ch cs with pout := [], ipos := Config.headerLen, phase := .dec }

/-- HEADER: `DEC_START` on a header that is all there (rules R158, R159). The checks stand in rule R159's order. -/
def execHeader (m : Magic) (w h : Dim) (ch cs : Byte) (s : State) : Result :=
  require s.startAdmitted .decStart
    (if m ≠ s.cfg.magic then .next (s.raiseAtStart .format)
     else if legalChannels ch = false then .next (s.raiseAtStart .format)
     else if legalColorspace cs = false then .next (s.raiseAtStart .format)
     else .next (s.beginDecode w h ch cs))

/-- END: `DEC_END` (rule R161). A trailer that is missing, short or wrong sets `END_BAD`, and what is there of it is consumed. -/
def execEnd (s : State) : Result :=
  require s.decEndAdmitted .decEnd
    (let found := s.input.window s.ipos Config.trailerLen
     let s' := if found = Config.trailer then s else s.setEndBad
     .next { s'.advance found.length with phase := .done })

/-- `ENC_START` with legal arguments (rule R153): `OUT` starts anew with the header (rule R154). -/
def State.beginEncode (w h : Dim) (ch cs : Byte) (s : State) : State :=
  { State.emit (encode (.header s.cfg.magic w h ch cs)) { s.beginPass w h ch cs with out := [], opos := 0 } with
    phase := .enc }

end Sys2Proof.Machine
end

