-- ==== Sys2Proof/Machine/Encoder.lean ====
section
/-! DEFINITION. The encoder's commands (spec/42_encoder.md, spec/43_framing_and_pass_control.md). -/

namespace Sys2Proof.Machine

/-- Write the pending run as one RUN chunk (rules R122, R123). -/
def State.flushRun (s : State) : State := { s.emit (encode (.run s.run)) with run := 0 }

/-- The run branch (rule R122): count the pixel; flush at 62 and at the last pixel. -/
def State.countRun (s : State) : State :=
  let s' := { s with run := s.run + 1 }
  if s'.run = Config.maxRun ∨ s.pixcnt + 1 = s.npix then s'.flushRun else s'

/-- The chunk for a pixel that differs from `PREV` (rules R124 to R130). Only slot `cache_index(p)` is looked at. -/
def State.chooseChunk (p : Pixel) (s : State) : Instr :=
  selectChunk s.cfg.encDeltaWrap (cacheIndex p) (lookup s.cache (cacheIndex p)) s.prev p

/-- The non-run branch (rules R123, R130): a pending run first, then exactly one chunk. -/
def State.emitChunk (p : Pixel) (s : State) : State :=
  let s' := if 0 < s.run then s.flushRun else s
  s'.emit (encode (s'.chooseChunk p))

/-- The pixel after alpha forcing (rules R122 to R133). -/
def State.encodePixel (p : Pixel) (s : State) : State :=
  State.consume p (if p = s.prev then s.countRun else s.emitChunk p)

/-- `ENC_START` (rule R153): refused unless no pass is in progress and the arguments are well-formed. -/
def cmdEncStart (w h ch cs : Nat) (s : State) : Result :=
  require s.startAdmitted (.encStart w h ch cs)
    (if w < 2 ^ 32 ∧ h < 2 ^ 32 ∧ (ch = 3 ∨ ch = 4) ∧ (cs = 0 ∨ cs = 1) then
      .next (s.beginEncode (BitVec.ofNat 32 w) (BitVec.ofNat 32 h) (BitVec.ofNat 8 ch) (BitVec.ofNat 8 cs))
     else .refused .illFormedArguments)

/-- `ENC_PIXEL` (rules R120, R121). -/
def cmdEncPixel (p : Pixel) (s : State) : Result :=
  require s.pixelAdmitted (.encPixel p) (.next (s.encodePixel (forceAlpha s.ch p)))

/-- `ENC_END` (rules R155, R156). -/
def cmdEncEnd (s : State) : Result :=
  require s.encEndAdmitted .encEnd (.next { s.emit (encode .endMarker) with phase := .done })

end Sys2Proof.Machine
end

