-- ==== Sys2Proof/Machine/Commands.lean ====
section
/-! DEFINITION. The seven commands (spec/43_framing_and_pass_control.md rule R150), what the host can do, and how an item is
fetched and executed. -/

namespace Sys2Proof.Machine

/-- `RESET` (rule R163): always admitted; every register but `PHASE`, `ERR`, `DIAG` is left without a value. -/
def cmdReset (s : State) : Result :=
  .next { s.clobber with phase := .idle, err := .none, diag := Diag.clear }

/-- The longest chunk (rule R66). -/
def longestChunk : Nat := 5

/-- `DEC_START` (rules R158, R159): a header that is not all there is a short read, checked before any field. -/
def cmdDecStart (s : State) : Result :=
  require s.startAdmitted .decStart
    (match decode .header (s.input.window 0 Config.headerLen) with
     | .rejected .shortRead => .next (s.raiseAtStart .truncated)
     | .item i _ => exec i s)

/-- `DEC_CHUNK` (rules R100, R101): fetch at `IPOS`, then execute. A chunk that is not all there has no effect but the error. -/
def cmdDecChunk (s : State) : Result :=
  require s.chunkAdmitted .decChunk
    (match decode .chunk (s.input.window s.ipos longestChunk) with
     | .rejected .shortRead => .next (s.raise .truncated)
     | .item i _ => exec i s)

/-- `DEC_END` (rule R161): after the last chunk the item is END, whatever bytes are there (`decode .trailer`). -/
def cmdDecEnd (s : State) : Result := exec .endMarker s

/-- Execute a command. -/
def runCommand (c : Command) (s : State) : Result :=
  match c with
  | .reset => cmdReset s
  | .encStart w h ch cs => cmdEncStart w h ch cs s
  | .encPixel p => cmdEncPixel p s
  | .encEnd => cmdEncEnd s
  | .decStart => cmdDecStart s
  | .decChunk => cmdDecChunk s
  | .decEnd => cmdDecEnd s

/-- The host presents an input sequence. It has no such move during a decode pass (rules R41, R55, U13; log entry 7). -/
def presentInput (bs : List Byte) (s : State) : Result :=
  if s.phase = .dec then .refused .inputInUse else .next { s with input := Memory.ofBytes bs }

/-- Carry out a move of the host. -/
def runMove (m : HostMove) (s : State) : Result :=
  match m with
  | .issue c => runCommand c s
  | .present bs => presentInput bs s

/-- One step: the host's next move. While the host does nothing, nothing happens (rules R9, R206; log entry 4). -/
def runStep (s : State) : Result :=
  match s.moves with
  | [] => .next s
  | m :: rest => runMove m { s with moves := rest }

/-- The state made ready to fetch an item of a position next (log entry 9): the command that fetches it is the host's next
move, and the registers admit that command. Nothing is changed that already admits it. -/
def State.readyFor (p : Position) (s : State) : State :=
  match p with
  | .header =>
    { s with phase := if s.startAdmitted then s.phase else .idle, moves := [.issue .decStart] }
  | .chunk =>
    if s.chunkAdmitted then { s with moves := [.issue .decChunk] }
    else { s with phase := .dec, err := .none, pixcnt := 0, w := 62, h := 1, moves := [.issue .decChunk] }
  | .trailer =>
    { s with phase := .dec, err := .none, pixcnt := s.npix, moves := [.issue .decEnd] }

/-- Where the next item is fetched: the header at offset 0, all else at `IPOS` (rules R101, R158, R161). -/
def State.fetchOffset (p : Position) (s : State) : Nat :=
  match p with
  | .header => 0
  | .chunk => s.ipos
  | .trailer => s.ipos

/-- How many bytes are fetched at most. -/
def fetchLength (p : Position) : Nat :=
  match p with
  | .header => Config.headerLen
  | .chunk => longestChunk
  | .trailer => Config.trailerLen

/-- Store a table word where the next item is fetched, and make ready to fetch it. -/
def State.placeWord (s : State) (nbits w : Nat) : State :=
  let p := tablePosition nbits
  let s := s.readyFor p
  { s with input := s.input.writeBytes (s.fetchOffset p) ((tableBytes nbits w).take (fetchLength p)) }

end Sys2Proof.Machine
end

