-- ==== Sys2Proof/Machine/Step.lean ====
section
/-! DEFINITION. One step of the machine, and how a word is put where the step fetches. -/

namespace Sys2Proof.Machine

/-- One step of the machine: the host's next move is carried out. -/
def step (s : State) : Host.Outcome State Fault Refusal := runStep s

/-- `s` with a table word stored where the very next step fetches and runs it (log entry 9). -/
def State.withFetchWord (s : State) (nbits w : Nat) : State := s.placeWord nbits w

end Sys2Proof.Machine
end

