-- ==== Sys2Proof/Machine/System.lean ====
section
/-! DEFINITION. A set of instances (spec/60_exceptions.md rule R204): the product of single ones. Each has a `State` of its own,
nothing is shared, and the host interleaves their moves as it likes. -/

namespace Sys2Proof.Machine

/-- The instances of a system (rules R9, R204). They have no identifiers: the place in the list is how the model names one
(log entry 16). -/
abbrev System := List State

/-- What a move of a system answers. -/
abbrev SystemResult := Host.Outcome System Fault Refusal

/-- One instance after power-on, the `k`-th of its set: `State.reset` with its own parameters and free values. -/
def State.powerOn (k : Nat) (cfg : Config) : State := { State.reset with cfg := cfg, free := ⟨k, 0⟩ }

/-- Instances after power-on, one for each of these parameters, the first of them the `k`-th of the set. -/
def System.powerOnFrom : Nat → List Config → System
  | _, [] => []
  | k, cfg :: cfgs => State.powerOn k cfg :: System.powerOnFrom (k + 1) cfgs

/-- A system after power-on (rules R204, R210). -/
def System.powerOn (cfgs : List Config) : System := System.powerOnFrom 0 cfgs

/-- Do `f` in instance `k`, and nothing in any other. If instance `k` has no step, the move has none; the host may go on with
the other instances. Where there is no instance `k`, nothing happens. -/
def System.actAt (f : State → Host.Outcome State Fault Refusal) : Nat → System → SystemResult
  | _, [] => .next []
  | 0, s :: rest =>
    match f s with
    | .next t => .next (t :: rest)
    | .fault e => .fault e
    | .refused e => .refused e
  | k + 1, s :: rest =>
    match System.actAt f k rest with
    | .next rest => .next (s :: rest)
    | .fault e => .fault e
    | .refused e => .refused e

/-- One step of instance `k`: its host's next move (rule R204). -/
def System.stepAt (k : Nat) (sys : System) : SystemResult := System.actAt step k sys

/-- The host feeds what instance `i` has emitted so far to instance `j` as its input (rule R55): `j` is presented with those
bytes, under the rule for presenting an input. -/
def System.feed (i j : Nat) (sys : System) : SystemResult :=
  match sys[i]? with
  | none => .next sys
  | some s => System.actAt (presentInput s.out.bytes) j sys

/-- What can happen in a system. -/
inductive SystemMove where
  /-- Instance `k` carries out its next move. -/
  | step (k : Nat)
  /-- The output of instance `i` becomes the input of instance `j`. -/
  | feed (i j : Nat)
deriving DecidableEq, Repr

/-- Carry out one move. -/
def System.move (m : SystemMove) (sys : System) : SystemResult :=
  match m with
  | .step k => System.stepAt k sys
  | .feed i j => System.feed i j sys

/-- Carry out moves in the order given: one interleaving. -/
def System.run : List SystemMove → System → SystemResult
  | [], sys => .next sys
  | m :: ms, sys =>
    match System.move m sys with
    | .next sys => System.run ms sys
    | .fault e => .fault e
    | .refused e => .refused e

/-- An interleaving in which the instances only step: `ks` names, in order, the instance of each step. -/
def System.interleave (ks : List Nat) (sys : System) : SystemResult := System.run (ks.map .step) sys

/-- `n` steps of one instance alone. -/
def runSteps : Nat → State → Host.Outcome State Fault Refusal
  | 0, s => .next s
  | n + 1, s =>
    match step s with
    | .next s => runSteps n s
    | .fault e => .fault e
    | .refused e => .refused e

end Sys2Proof.Machine
end

