-- ==== Sys2Proof/Machine/Pass.lean ====
section
/-! DEFINITION. The whole-pass functions `encode` and `decode` as compositions of the commands
(spec/43_framing_and_pass_control.md rules R164 to R168), and the Image (spec/00_scope.md rule R12). -/

namespace Sys2Proof.Machine

/-- An Image (rule R12): its pixels in row-major order. -/
structure Image where
  w : Dim
  h : Dim
  ch : Byte
  cs : Byte
  pix : List Pixel
deriving DecidableEq, Repr

/-- A well-formed Image (rules R12, R212): legal `CH` and `CS`, `W x H` pixels, and no alpha but 255 in a 3-channel one. -/
def Image.wf (img : Image) : Bool :=
  legalChannels img.ch && legalColorspace img.cs && img.pix.length == img.w.toNat * img.h.toNat &&
    (img.ch != 3 || img.pix.all fun p => p.a == 255)

/-- Go on from the next state, if there is one. -/
def andThen (r : Result) (f : State → Result) : Result :=
  match r with
  | .next s => f s
  | .fault e => .fault e
  | .refused e => .refused e

/-- Execute commands in the order given (rule R52). -/
def runCommands : List Command → State → Result
  | [], s => .next s
  | c :: cs, s => andThen (runCommand c s) (runCommands cs)

/-- The commands of `encode` up to the first `k` pixels (rule R166). -/
def Image.commandsTo (img : Image) (k : Nat) : List Command :=
  .encStart img.w.toNat img.h.toNat img.ch.toNat img.cs.toNat :: (img.pix.take k).map .encPixel

/-- `encode` (rule R166), run on the instance `s`: the answer is `OUT` of the state it ends in. -/
def encodeImage (img : Image) (s : State) : Result :=
  runCommands (img.commandsTo img.pix.length ++ [.encEnd]) s

/-- `while PHASE = DEC and PIXCNT < NPIX: DEC_CHUNK` (rule R167), for at most so many rounds. -/
def decodeLoop : Nat → State → Result
  | 0, s => .next s
  | k + 1, s => if s.chunkAdmitted then andThen (cmdDecChunk s) (decodeLoop k) else .next s

/-- `if PHASE = DEC: DEC_END` (rule R167). -/
def finishDecode (s : State) : Result := if s.phase = .dec then cmdDecEnd s else .next s

/-- `decode` (rule R167), run on the instance `s`: the host presents the stream, then issues the commands. Every `DEC_CHUNK`
consumes a byte or fails, so the loop ends within as many rounds as there are bytes. -/
def decodeStream (bs : List Byte) (s : State) : Result :=
  andThen (presentInput bs s) fun s =>
    andThen (cmdDecStart s) fun s =>
      andThen (decodeLoop bs.length s) finishDecode

/-- The Image a decode pass yields (rule R46): the host drops the alpha of a three-channel result. -/
def Image.ofState (s : State) : Image :=
  ⟨s.w, s.h, s.ch, s.cs, s.pout.map (forceAlpha s.ch)⟩

/-- What `decode` returns (rules R167, R187): an Image with the diagnostics beside it, or an error and no Image. -/
inductive DecodeAnswer where
  | image (img : Image) (diag : Diag)
  | error (e : Err)
deriving DecidableEq, Repr

/-- Read the answer off the state a pass ends in. -/
def State.decodeAnswer (s : State) : Option DecodeAnswer :=
  match s.phase with
  | .done => some (.image (Image.ofState s) s.diag)
  | .failed => some (.error s.err)
  | .idle => none
  | .enc => none
  | .dec => none

/-- The pixels an item produces when the decoder executes it (rules R103 to R109). -/
def chunkPixels (i : Instr) (s : State) : List Pixel :=
  match i with
  | .rgb r g b => [rgbPixel s.prev r g b]
  | .rgba r g b a => [rgbaPixel r g b a]
  | .index k => [lookup s.cache k]
  | .diff dr dg db => [diffPixel s.prev dr dg db]
  | .luma dg drg dbg => [lumaPixel s.prev dg drg dbg]
  | .run n => List.replicate (min n (s.npix - s.pixcnt)) s.prev
  | .header _ _ _ _ _ => []
  | .endMarker => []

end Sys2Proof.Machine
end

