-- ==== Sys2Proof/Safety.lean ====
section
/-! DEFINITION. What counts as a safe run, in the terms the claims use: which commands are admitted, and what holds between
commands. -/

namespace Sys2Proof.Machine

/-! ## Admission, as rule R151's table states it -/

/-- The command is admitted in this state (rules R151, R153). -/
def Command.admitted (c : Command) (s : State) : Prop :=
  match c with
  | .reset => True
  | .encStart w h ch cs =>
    (s.phase = .idle ∨ s.phase = .done ∨ s.phase = .failed) ∧
      w < 2 ^ 32 ∧ h < 2 ^ 32 ∧ (ch = 3 ∨ ch = 4) ∧ (cs = 0 ∨ cs = 1)
  | .encPixel _ => s.phase = .enc ∧ s.pixcnt < s.npix
  | .encEnd => s.phase = .enc ∧ s.pixcnt = s.npix
  | .decStart => s.phase = .idle ∨ s.phase = .done ∨ s.phase = .failed
  | .decChunk => s.phase = .dec ∧ s.pixcnt < s.npix
  | .decEnd => s.phase = .dec ∧ s.pixcnt = s.npix

/-- The host's move is one it has (rules R41, R151). -/
def HostMove.admitted (m : HostMove) (s : State) : Prop :=
  match m with
  | .issue c => c.admitted s
  | .present _ => s.phase ≠ .dec

/-! ## What a chunk changes, and what it leaves unchanged -/

/-- What every chunk leaves unchanged (rule R36, column `DEC_CHUNK`): all registers but `CACHE`, `PREV`, `PIXCNT`, `IPOS` and
`DIAG`, every byte of both streams, and what is not the block's to write. -/
structure ChunkFrame (s t : State) : Prop where
  run : t.run = s.run
  width : t.w = s.w
  height : t.h = s.h
  channels : t.ch = s.ch
  colorspace : t.cs = s.cs
  opos : t.opos = s.opos
  phase : t.phase = s.phase
  err : t.err = s.err
  input : ∀ a, t.input.read a = s.input.read a
  out : ∀ a, t.out.read a = s.out.read a
  lengths : t.input.len = s.input.len ∧ t.out.len = s.out.len
  moves : t.moves = s.moves
  cfg : t.cfg = s.cfg
  free : t.free = s.free

/-- The cache of `t` is that of `s` after `update p` (rule R93): the slot of `p` holds `p`, the other 63 are unchanged. -/
structure SlotWritten (s t : State) (p : Pixel) : Prop where
  slot : lookup t.cache (cacheIndex p) = p
  others : ∀ j, j ≠ cacheIndex p → lookup t.cache j = lookup s.cache j

/-- A chunk of `n` bytes has produced the one pixel `p` (rules R101, R102). -/
structure OnePixelChunk (s t : State) (n : Nat) (p : Pixel) : Prop where
  frame : ChunkFrame s t
  diag : t.diag = s.diag
  produced : t.pout = s.pout ++ [p]
  cache : SlotWritten s t p
  prev : t.prev = p
  counted : t.pixcnt = s.pixcnt + 1
  consumed : t.ipos = s.ipos + n

/-- What every command of an encode pass between its START and its end leaves unchanged (rule R36, column `ENC_PIXEL`). -/
structure EncFrame (s t : State) : Prop where
  width : t.w = s.w
  height : t.h = s.h
  channels : t.ch = s.ch
  colorspace : t.cs = s.cs
  ipos : t.ipos = s.ipos
  err : t.err = s.err
  diag : t.diag = s.diag
  input : ∀ a, t.input.read a = s.input.read a
  inputLength : t.input.len = s.input.len
  pout : t.pout = s.pout
  moves : t.moves = s.moves
  cfg : t.cfg = s.cfg
  free : t.free = s.free

/-- `OUT` of `t` is that of `s` with `bs` appended (rule R44): they stand from the old `LEN` on, and no other byte changes. -/
structure Emitted (s t : State) (bs : List Byte) : Prop where
  bytes : t.out.bytes = s.out.bytes ++ bs
  outside : ∀ a, a < s.out.len ∨ s.out.len + bs.length ≤ a → t.out.read a = s.out.read a
  counted : t.opos = s.opos + bs.length

/-- The registers both STARTs initialise hold their pass-start values (rule R34). -/
structure PassStarted (t : State) (w h : Dim) (ch cs : Byte) : Prop where
  slots : ∀ i, lookup t.cache i = Config.zeroPixel
  prev : t.prev = Config.prevInit
  run : t.run = 0
  header : t.w = w ∧ t.h = h ∧ t.ch = ch ∧ t.cs = cs
  pixcnt : t.pixcnt = 0
  err : t.err = .none
  diag : t.diag = ⟨false, false⟩

/-! ## What the pixels of a pass leave in the cache (rule R98) -/

/-- The cache after these pixels, from a fresh one. -/
def cacheAfter (ps : List Pixel) : Cache := ps.foldl update freshCache

/-- The previous pixel after these pixels. -/
def prevAfter (ps : List Pixel) : Pixel := ps.getLastD Config.prevInit

/-- The first `k` pixels of an Image, as the encoder takes them (rule R121). -/
def Image.pixelsTo (img : Image) (k : Nat) : List Pixel := (img.pix.take k).map (forceAlpha img.ch)

/-- `IN` is presented and `DEC_START` issued: the state a decode pass of `bs` begins in. -/
def startDecode (bs : List Byte) (s : State) : Result := andThen (presentInput bs s) cmdDecStart

/-! ## What holds between commands -/

/-- Rule R37 (a): a slot holds the zero pixel or a pixel whose index it is. -/
def SlotsIndexed (cache : Cache) : Prop :=
  ∀ i : Fin 64, lookup cache i = Config.zeroPixel ∨ cacheIndex (lookup cache i) = i

/-- Rule R37 (f), of the slots. -/
def SlotsOpaque (cache : Cache) : Prop :=
  ∀ i : Fin 64, lookup cache i = Config.zeroPixel ∨ (lookup cache i).a = 255

/-- What holds in a pass of either direction (rules R24, R37 (a), (c), (d)). -/
structure PassInv (s : State) : Prop where
  slots : SlotsIndexed s.cache
  bound : s.pixcnt ≤ s.npix
  recent : 0 < s.pixcnt → lookup s.cache (cacheIndex s.prev) = s.prev
  channels : legalChannels s.ch = true
  colorspace : legalColorspace s.cs = true

/-- What holds in an encode pass besides (rules R37 (b), (f), R139, R44, R212). -/
structure EncInv (s : State) : Prop where
  runBound : s.run ≤ 61
  runCounted : s.run ≤ s.pixcnt
  runFlushed : s.pixcnt = s.npix → s.run = 0
  opaquePrev : s.ch = 3 → s.prev.a = 255
  opaqueSlots : s.ch = 3 → SlotsOpaque s.cache
  position : s.opos = s.out.len
  room : s.opos + (if 0 < s.run then 1 else 0) ≤ 14 + 5 * s.pixcnt

/-- What holds in a decode pass besides (rules R27, R46, R98). -/
structure DecInv (s : State) : Prop where
  produced : s.pout.length = s.pixcnt
  slotsFromPixels : s.cache = cacheAfter s.pout
  prevFromPixels : s.prev = prevAfter s.pout
  afterHeader : 14 ≤ s.ipos
  withinInput : s.ipos ≤ s.input.len

/-- The invariant of the machine (rules R30, R37, R41, R44). -/
structure Inv (s : State) : Prop where
  inputWf : s.input.wf = true
  inputDense : s.input.dense = true
  outWf : s.out.wf = true
  outDense : s.out.dense = true
  errorPhase : s.err ≠ .none ↔ s.phase = .failed
  noInternal : s.err ≠ .internal
  encPass : s.phase = .enc → PassInv s ∧ EncInv s
  decPass : s.phase = .dec → PassInv s ∧ DecInv s

/-! ## Safe runs -/

/-- `s'` is reached from `s` by steps that answer a next state. -/
inductive Reaches : State → State → Prop where
  | refl (s : State) : Reaches s s
  | tail {s t u : State} : Reaches s t → step t = .next u → Reaches s u

/-- No step ends in a fault, whatever the host does. -/
def NoFault (s : State) : Prop := ∀ f, step s ≠ .fault f

end Sys2Proof.Machine
end

