-- ==== Sys2Proof/Certificates/Slice0/Obligations.lean ====
section
/-! DEFINITION. The statements about the model, for the provers. Where a statement rests on a choice of the spec's own
(spec/92_eei_decisions.md) or of the model's (a log entry), its docstring says so. -/

open Sys2Proof Sys2Proof.Machine

/-! ## Encoding -/

/-- Decoding the bytes of a well-formed item at its position gives the item back, whatever bytes follow, and leaves exactly
those. (The field positions are decisions D3 and D4.) -/
def Obligations.DecodeOfEncodeIsItem : Prop :=
  ∀ (i : Instr) (rest : List Byte), i.wf = true →
    decode i.position (encode i ++ rest) = .item i rest

/-- No bit of a chunk or a header is dropped: the bytes an item was read from are its encoding. A chunk so read is
well-formed. (Field positions: D3, D4.) -/
def Obligations.EncodeOfDecodedIsBytes : Prop :=
  ∀ (bs : List Byte) (i : Instr) (rest : List Byte),
    (decodeChunk bs = .item i rest → i.wf = true ∧ i.position = .chunk ∧ encode i ++ rest = bs) ∧
    (decodeHeader bs = .item i rest → i.position = .header ∧ encode i ++ rest = bs)

/-- The first byte alone fixes a chunk's length, and no first byte is illegal: bytes are rejected exactly when they are fewer
than the first one declares. -/
def Obligations.FirstByteFixesLength : Prop :=
  (decodeChunk [] = .rejected .shortRead) ∧
  ∀ (b0 : Byte) (bs : List Byte),
    (bs.length + 1 < (classify b0).length → decodeChunk (b0 :: bs) = .rejected .shortRead) ∧
    ((classify b0).length ≤ bs.length + 1 →
      ∃ i, decodeChunk (b0 :: bs) = .item i ((b0 :: bs).drop (classify b0).length) ∧
        i.length = (classify b0).length) ∧
    (classify b0).length = (match classify b0 with
      | .index => 1 | .diff => 1 | .run => 1 | .luma => 2 | .rgb => 4 | .rgba => 5)

/-- The two literal tags first, then the top two bits. -/
def Obligations.ClassifyTestsLiteralsFirst : Prop :=
  ∀ b : Byte,
    (classify b = .rgb ↔ b = 0xFE) ∧
    (classify b = .rgba ↔ b = 0xFF) ∧
    (classify b = .index ↔ b.extractLsb 7 6 = 0b00#2) ∧
    (classify b = .diff ↔ b.extractLsb 7 6 = 0b01#2) ∧
    (classify b = .luma ↔ b.extractLsb 7 6 = 0b10#2) ∧
    (classify b = .run ↔ b.extractLsb 7 6 = 0b11#2 ∧ b ≠ 0xFE ∧ b ≠ 0xFF)

/-- Words written out from the encodings of rules R61, R62, R67 to R73 decode to the items they stand for. (Field positions:
D3, D4. The magic bytes are an example. That a word of 112 bits is read as HEADER and one of 64 bits as END is the model's
choice, log entry 10: rules R61 and R62 give their bytes, and rules R50 and R76 tell them by position alone.) -/
def Obligations.SpecWordsDecode : Prop :=
  decodeTableWord 32 0x030201FE = some (.rgb 1 2 3) ∧
  decodeTableWord 40 0x04030201FF = some (.rgba 1 2 3 4) ∧
  decodeTableWord 8 0b00001110 = some (.index 14) ∧
  decodeTableWord 8 0b01110010 = some (.diff 1 (-2) 0) ∧
  decodeTableWord 16 0b1011011010011011 = some (.luma (-5) 3 (-2)) ∧
  decodeTableWord 8 0b11111101 = some (.run 62) ∧
  decodeTableWord 112 0x0004020000000300000066696F71 = some (.header ⟨0x71, 0x6F, 0x69, 0x66⟩ 3 2 4 0) ∧
  decodeTableWord 64 0x0100000000000000 = some .endMarker

/-! ## The Color Cache -/

/-- `cache_index`. -/
def Obligations.HashIsWeightedSumModulo64 : Prop :=
  ∀ p : Pixel, (cacheIndex p).val = (3 * p.r.toNat + 5 * p.g.toNat + 7 * p.b.toNat + 11 * p.a.toNat) % 64

/-- Reducing every product before the sum gives the same index: narrow arithmetic is enough. -/
def Obligations.HashInNarrowArithmetic : Prop :=
  ∀ p : Pixel,
    (cacheIndex p).val =
      (3 * p.r.toNat % 64 + 5 * p.g.toNat % 64 + 7 * p.b.toNat % 64 + 11 * p.a.toNat % 64) % 64 ∧
    (cacheIndex p).val = (3 * p.r + 5 * p.g + 7 * p.b + 11 * p.a).toNat % 64

/-- `update` overwrites the slot of its pixel and leaves the other 63 alone. -/
def Obligations.UpdateOverwritesOneSlot : Prop :=
  ∀ (cache : Cache) (p : Pixel),
    lookup (update cache p) (cacheIndex p) = p ∧
    ∀ j, j ≠ cacheIndex p → lookup (update cache p) j = lookup cache j

/-- The cache after pixels is a function of them alone: a slot holds the last of them that has its index, or the zero pixel
if there is none. -/
def Obligations.SlotHoldsLastPixelOfItsIndex : Prop :=
  ∀ (ps : List Pixel) (i : Fin 64),
    lookup (cacheAfter ps) i =
      (ps.filter fun p => decide (cacheIndex p = i)).getLastD Config.zeroPixel

/-! ## The six chunk operations: where they complete, what they leave -/

/-- INDEX completes wherever a chunk is admitted; its pixel is the slot's content. -/
def Obligations.IndexProducesSlot : Prop :=
  ∀ (i : Fin 64) (s : State), s.phase = .dec → s.pixcnt < s.npix →
    ∃ t, exec (.index i) s = .next t ∧ OnePixelChunk s t 1 (lookup s.cache i)

/-- DIFF completes wherever a chunk is admitted; the three deltas are added modulo 256 (D6), alpha is `PREV`'s. -/
def Obligations.DiffAddsDeltas : Prop :=
  ∀ (dr dg db : Int) (s : State), s.phase = .dec → s.pixcnt < s.npix →
    ∃ t p, exec (.diff dr dg db) s = .next t ∧ OnePixelChunk s t 1 p ∧
      (p.r.toNat : Int) = (s.prev.r.toNat + dr) % 256 ∧
      (p.g.toNat : Int) = (s.prev.g.toNat + dg) % 256 ∧
      (p.b.toNat : Int) = (s.prev.b.toNat + db) % 256 ∧
      p.a = s.prev.a

/-- LUMA completes wherever a chunk is admitted; `dr = dg + drg` and `db = dg + dbg`, added modulo 256 (D6), alpha is
`PREV`'s. -/
def Obligations.LumaAddsDeltas : Prop :=
  ∀ (dg drg dbg : Int) (s : State), s.phase = .dec → s.pixcnt < s.npix →
    ∃ t p, exec (.luma dg drg dbg) s = .next t ∧ OnePixelChunk s t 2 p ∧
      (p.r.toNat : Int) = (s.prev.r.toNat + dg + drg) % 256 ∧
      (p.g.toNat : Int) = (s.prev.g.toNat + dg) % 256 ∧
      (p.b.toNat : Int) = (s.prev.b.toNat + dg + dbg) % 256 ∧
      p.a = s.prev.a

/-- RGB completes wherever a chunk is admitted; its alpha is `PREV`'s. -/
def Obligations.RgbKeepsAlpha : Prop :=
  ∀ (r g b : Byte) (s : State), s.phase = .dec → s.pixcnt < s.npix →
    ∃ t, exec (.rgb r g b) s = .next t ∧ OnePixelChunk s t 4 ⟨r, g, b, s.prev.a⟩

/-- RGBA completes wherever a chunk is admitted; all four channels are literal. -/
def Obligations.RgbaIsLiteral : Prop :=
  ∀ (r g b a : Byte) (s : State), s.phase = .dec → s.pixcnt < s.npix →
    ∃ t, exec (.rgba r g b a) s = .next t ∧ OnePixelChunk s t 5 ⟨r, g, b, a⟩

/-- RUN completes wherever a chunk is admitted: `PREV` is produced as often as asked or, if fewer pixels remain, as often as
they do, and then `RUN_OVERRUN` is set (D7). -/
def Obligations.RunRepeatsPrevious : Prop :=
  ∀ (n : Nat) (s : State), 1 ≤ n → s.phase = .dec → s.pixcnt < s.npix →
    ∃ t, exec (.run n) s = .next t ∧ ChunkFrame s t ∧
      t.pout = s.pout ++ List.replicate (min n (s.npix - s.pixcnt)) s.prev ∧
      SlotWritten s t s.prev ∧
      t.prev = s.prev ∧
      t.pixcnt = s.pixcnt + min n (s.npix - s.pixcnt) ∧
      t.ipos = s.ipos + 1 ∧
      t.diag.endBad = s.diag.endBad ∧
      t.diag.runOverrun = (s.diag.runOverrun || decide (s.npix - s.pixcnt < n))

/-- Where its command is not admitted, no item has a step (D22). -/
def Obligations.ItemsRefusedOutOfPlace : Prop :=
  ∀ (i : Instr) (s : State),
    (i.position = .chunk → ¬ (s.phase = .dec ∧ s.pixcnt < s.npix) → exec i s = .refused (.notAdmitted .decChunk)) ∧
    (i.position = .header → ¬ (s.phase = .idle ∨ s.phase = .done ∨ s.phase = .failed) →
      exec i s = .refused (.notAdmitted .decStart)) ∧
    (i.position = .trailer → ¬ (s.phase = .dec ∧ s.pixcnt = s.npix) → exec i s = .refused (.notAdmitted .decEnd))

/-! ## The framing items -/

/-- HEADER completes where no pass is in progress and its fields are legal: the decode pass begins. That `OPOS` and `OUT`
stay is the model's reading (log entries 11 and 12). -/
def Obligations.HeaderBeginsDecodePass : Prop :=
  ∀ (w h : Dim) (ch cs : Byte) (s : State),
    s.phase = .idle ∨ s.phase = .done ∨ s.phase = .failed → ch = 3 ∨ ch = 4 → cs = 0 ∨ cs = 1 →
    ∃ t, exec (.header s.cfg.magic w h ch cs) s = .next t ∧ PassStarted t w h ch cs ∧
      t.ipos = 14 ∧ t.phase = .dec ∧ t.pout = [] ∧
      t.opos = s.opos ∧ (∀ a, t.input.read a = s.input.read a) ∧ (∀ a, t.out.read a = s.out.read a) ∧
      t.input.len = s.input.len ∧ t.out.len = s.out.len ∧
      t.moves = s.moves ∧ t.cfg = s.cfg ∧ t.free = s.free

/-- HEADER with a wrong magic, an illegal `CH` or an illegal `CS` raises `FormatError` (state after it: D13), and so a
next state in `FAILED`. Registers that then hold no value are free values and the statement is silent on them (log entry 3);
that `OUT` stays is the model's reading (log entry 12). -/
def Obligations.BadHeaderRaisesFormat : Prop :=
  ∀ (m : Magic) (w h : Dim) (ch cs : Byte) (s : State),
    s.phase = .idle ∨ s.phase = .done ∨ s.phase = .failed →
    m ≠ s.cfg.magic ∨ ¬ (ch = 3 ∨ ch = 4) ∨ ¬ (cs = 0 ∨ cs = 1) →
    ∃ t, exec (.header m w h ch cs) s = .next t ∧
      t.err = .format ∧ t.phase = .failed ∧ t.diag = ⟨false, false⟩ ∧
      (∀ a, t.input.read a = s.input.read a) ∧ (∀ a, t.out.read a = s.out.read a) ∧
      t.moves = s.moves ∧ t.cfg = s.cfg

/-- END completes where all pixels have been produced, whatever bytes are there. The trailer is consumed; if it is absent,
short or wrong, `END_BAD` is set and what is there of it is consumed (how much: D9). -/
def Obligations.EndExaminesTrailer : Prop :=
  ∀ s : State, s.phase = .dec → s.pixcnt = s.npix → s.input.dense = true →
    ∃ t, exec .endMarker s = .next t ∧
      t.phase = .done ∧
      (s.input.streamRead s.ipos 8 = some [0, 0, 0, 0, 0, 0, 0, 1] → t.diag = s.diag ∧ t.ipos = s.ipos + 8) ∧
      (s.input.streamRead s.ipos 8 ≠ some [0, 0, 0, 0, 0, 0, 0, 1] →
        t.diag.endBad = true ∧ t.diag.runOverrun = s.diag.runOverrun ∧
        t.ipos = s.ipos + min 8 (s.input.len - s.ipos)) ∧
      t.cache = s.cache ∧ t.prev = s.prev ∧ t.run = s.run ∧
      t.w = s.w ∧ t.h = s.h ∧ t.ch = s.ch ∧ t.cs = s.cs ∧
      t.pixcnt = s.pixcnt ∧ t.opos = s.opos ∧ t.err = s.err ∧ t.pout = s.pout ∧
      (∀ a, t.input.read a = s.input.read a) ∧ (∀ a, t.out.read a = s.out.read a) ∧
      t.moves = s.moves ∧ t.cfg = s.cfg ∧ t.free = s.free

/-! ## Fetch and the step -/

/-- A step carries out the host's next move and takes it off the list: any command is run, whatever it is and wherever it is
refused or comes up short; with no move to come nothing happens (log entry 4). Where the command fetches an item that is all
there, the step runs that item: the header at offset 0, a chunk at `IPOS`, END at `IPOS` once all pixels are there. -/
def Obligations.StepRunsDecodedItem : Prop :=
  ∀ (s : State) (rest : List HostMove) (i : Instr) (after : List Byte),
    (s.moves = [] → step s = .next s) ∧
    (∀ c, s.moves = .issue c :: rest → step s = runCommand c { s with moves := rest }) ∧
    (s.moves = .issue .decStart :: rest → s.phase = .idle ∨ s.phase = .done ∨ s.phase = .failed →
      decode .header (s.input.window 0 14) = .item i after → step s = exec i { s with moves := rest }) ∧
    (s.moves = .issue .decChunk :: rest → s.phase = .dec → s.pixcnt < s.npix →
      decode .chunk (s.input.window s.ipos 5) = .item i after → step s = exec i { s with moves := rest }) ∧
    (s.moves = .issue .decEnd :: rest → s.phase = .dec → s.pixcnt = s.npix →
      decode .trailer (s.input.window s.ipos 8) = .item i after → step s = exec i { s with moves := rest })

/-- The item a chunk fetch runs is the one whose encoding stands at `IPOS` of the input, whatever follows it. -/
def Obligations.ChunkAtPositionIsExecuted : Prop :=
  ∀ (s : State) (i : Instr) (after : List Byte), s.phase = .dec → s.pixcnt < s.npix →
    s.input.dense = true → i.wf = true → i.position = .chunk →
    s.input.bytes.drop s.ipos = encode i ++ after →
    runCommand .decChunk s = exec i s

/-- `DEC_CHUNK` on a stream that is exhausted, or that holds fewer bytes than the chunk's first byte declares, raises
`TruncatedStreamError`: of the registers only `ERR` and `PHASE` change (D13, D17). Of `POUT`, which is to be discarded then
(U11), the statement is silent. -/
def Obligations.ShortChunkRaisesTruncated : Prop :=
  ∀ s : State, s.phase = .dec → s.pixcnt < s.npix → s.input.dense = true →
    (s.input.len ≤ s.ipos ∨
      ∃ b0, s.input.read s.ipos = some b0 ∧ s.input.len - s.ipos < (classify b0).length) →
    ∃ t, runCommand .decChunk s = .next t ∧ t.err = .truncated ∧ t.phase = .failed ∧
      t.cache = s.cache ∧ t.prev = s.prev ∧ t.run = s.run ∧
      t.w = s.w ∧ t.h = s.h ∧ t.ch = s.ch ∧ t.cs = s.cs ∧
      t.pixcnt = s.pixcnt ∧ t.ipos = s.ipos ∧ t.opos = s.opos ∧ t.diag = s.diag ∧
      (∀ a, t.input.read a = s.input.read a) ∧ (∀ a, t.out.read a = s.out.read a) ∧
      t.moves = s.moves ∧ t.cfg = s.cfg ∧ t.free = s.free

/-- `DEC_START`: an input shorter than a header raises `TruncatedStreamError` before any field is looked at (D8); otherwise
the header is executed, its fields big-endian at their fixed offsets. -/
def Obligations.DecStartReadsHeader : Prop :=
  ∀ s : State, s.phase = .idle ∨ s.phase = .done ∨ s.phase = .failed → s.input.dense = true →
    (s.input.len < 14 →
      ∃ t, runCommand .decStart s = .next t ∧ t.err = .truncated ∧ t.phase = .failed ∧ t.diag = ⟨false, false⟩) ∧
    ∀ (m0 m1 m2 m3 w0 w1 w2 w3 h0 h1 h2 h3 ch cs : Byte) (rest : List Byte),
      s.input.bytes = [m0, m1, m2, m3, w0, w1, w2, w3, h0, h1, h2, h3, ch, cs] ++ rest →
      runCommand .decStart s =
        exec (.header ⟨m0, m1, m2, m3⟩ (w0 ++ w1 ++ w2 ++ w3) (h0 ++ h1 ++ h2 ++ h3) ch cs) s

/-! ## Commands -/

/-- A command has a step exactly where it is admitted (the admission table is D22, the encoder's argument check D10). -/
def Obligations.CommandsStepWhereAdmitted : Prop :=
  ∀ (c : Command) (s : State),
    (c.admitted s → ∃ t, runCommand c s = .next t) ∧
    (¬ c.admitted s → ∃ r, runCommand c s = .refused r)

/-- `RESET` is admitted everywhere and leaves the block's reset state (D16); nothing is emitted or read. The registers that
then hold no value are free values (log entry 3); that `POUT` stays is log entry 12. -/
def Obligations.ResetLeavesIdle : Prop :=
  ∀ s : State, ∃ t, runCommand .reset s = .next t ∧
    t.phase = .idle ∧ t.err = .none ∧ t.diag = ⟨false, false⟩ ∧
    t.input = s.input ∧ t.out = s.out ∧ t.pout = s.pout ∧ t.moves = s.moves ∧ t.cfg = s.cfg

/-- `ENC_START` with legal arguments (D10), where no pass is in progress, begins an encode pass and emits the header. That
`IPOS` and `POUT` stay is the model's reading (log entries 11 and 12). -/
def Obligations.EncStartEmitsHeader : Prop :=
  ∀ (w h ch cs : Nat) (s : State),
    s.phase = .idle ∨ s.phase = .done ∨ s.phase = .failed →
    w < 2 ^ 32 → h < 2 ^ 32 → ch = 3 ∨ ch = 4 → cs = 0 ∨ cs = 1 →
    ∃ t, runCommand (.encStart w h ch cs) s = .next t ∧
      PassStarted t (BitVec.ofNat 32 w) (BitVec.ofNat 32 h) (BitVec.ofNat 8 ch) (BitVec.ofNat 8 cs) ∧
      t.out.bytes.map BitVec.toNat =
        [s.cfg.magic.m0.toNat, s.cfg.magic.m1.toNat, s.cfg.magic.m2.toNat, s.cfg.magic.m3.toNat,
         w / 2 ^ 24, w / 2 ^ 16 % 256, w / 2 ^ 8 % 256, w % 256,
         h / 2 ^ 24, h / 2 ^ 16 % 256, h / 2 ^ 8 % 256, h % 256, ch, cs] ∧
      t.out.dense = true ∧ t.opos = 14 ∧ t.phase = .enc ∧
      t.ipos = s.ipos ∧ t.pout = s.pout ∧ (∀ a, t.input.read a = s.input.read a) ∧
      t.moves = s.moves ∧ t.cfg = s.cfg ∧ t.free = s.free

/-- The run branch of `ENC_PIXEL`: a pixel that, with its alpha forced (D11), equals `PREV` is counted; the run is written when
it reaches 62 and at the last pixel of the image. -/
def Obligations.EncPixelCountsRun : Prop :=
  ∀ (p : Pixel) (s : State), s.phase = .enc → s.pixcnt < s.npix → forceAlpha s.ch p = s.prev →
    ∃ t, runCommand (.encPixel p) s = .next t ∧ EncFrame s t ∧
      (s.run + 1 = 62 ∨ s.pixcnt + 1 = s.npix →
        t.run = 0 ∧ Emitted s t [BitVec.ofNat 8 (0xC0 + (s.run + 1 - 1))]) ∧
      (¬ (s.run + 1 = 62 ∨ s.pixcnt + 1 = s.npix) → t.run = s.run + 1 ∧ Emitted s t []) ∧
      SlotWritten s t s.prev ∧ t.prev = s.prev ∧ t.pixcnt = s.pixcnt + 1 ∧ t.phase = .enc

/-- The other branch (alpha forced: D11): a pending run is written first, then exactly one chunk, the one the priority chain
picks. -/
def Obligations.EncPixelEmitsChunk : Prop :=
  ∀ (p : Pixel) (s : State), s.phase = .enc → s.pixcnt < s.npix → forceAlpha s.ch p ≠ s.prev →
    ∃ t, runCommand (.encPixel p) s = .next t ∧ EncFrame s t ∧ t.run = 0 ∧
      Emitted s t ((if 0 < s.run then [BitVec.ofNat 8 (0xC0 + (s.run - 1))] else []) ++
        encode (s.chooseChunk (forceAlpha s.ch p))) ∧
      SlotWritten s t (forceAlpha s.ch p) ∧ t.prev = forceAlpha s.ch p ∧
      t.pixcnt = s.pixcnt + 1 ∧ t.phase = .enc

/-- The priority chain with plain integer deltas (D5: `ENC_DELTA_WRAP = false`): INDEX before DIFF before LUMA before RGB
before RGBA, each with its bytes. -/
def Obligations.PriorityChainPicksFirstLegal : Prop :=
  ∀ (p : Pixel) (s : State), s.cfg.encDeltaWrap = false →
    let dr : Int := p.r.toNat - s.prev.r.toNat
    let dg : Int := p.g.toNat - s.prev.g.toNat
    let db : Int := p.b.toNat - s.prev.b.toNat
    let hit := lookup s.cache (cacheIndex p) = p
    let diff := -2 ≤ dr ∧ dr ≤ 1 ∧ -2 ≤ dg ∧ dg ≤ 1 ∧ -2 ≤ db ∧ db ≤ 1
    let luma := -32 ≤ dg ∧ dg ≤ 31 ∧ -8 ≤ dr - dg ∧ dr - dg ≤ 7 ∧ -8 ≤ db - dg ∧ db - dg ≤ 7
    let bytes := (encode (s.chooseChunk p)).map BitVec.toInt
    let asBytes (l : List Int) := (l.map (BitVec.ofInt 8)).map BitVec.toInt
    (hit → bytes = asBytes [(cacheIndex p).val]) ∧
    (¬ hit → p.a = s.prev.a → diff →
      bytes = asBytes [0x40 + (dr + 2) * 16 + (dg + 2) * 4 + (db + 2)]) ∧
    (¬ hit → p.a = s.prev.a → ¬ diff → luma →
      bytes = asBytes [0x80 + dg + 32, (dr - dg + 8) * 16 + (db - dg + 8)]) ∧
    (¬ hit → p.a = s.prev.a → ¬ diff → ¬ luma → encode (s.chooseChunk p) = [0xFE, p.r, p.g, p.b]) ∧
    (¬ hit → p.a ≠ s.prev.a → encode (s.chooseChunk p) = [0xFF, p.r, p.g, p.b, p.a])

/-- `ENC_END` emits the trailer and completes the pass; under the machine's invariant no run is pending then. That it
completes whatever `RUN` holds is the model's reading of rule R139's "requires `RUN = 0`" (log entry 13). -/
def Obligations.EncEndEmitsTrailer : Prop :=
  ∀ s : State, s.phase = .enc → s.pixcnt = s.npix →
    (∃ t, runCommand .encEnd s = .next t ∧ EncFrame s t ∧ Emitted s t [0, 0, 0, 0, 0, 0, 0, 1] ∧
      t.phase = .done ∧ t.cache = s.cache ∧ t.prev = s.prev ∧ t.run = s.run ∧ t.pixcnt = s.pixcnt) ∧
    (Inv s → s.run = 0)

/-! ## Encoder against decoder -/

/-- A chunk the encoder chooses is well-formed, and executed from the same previous pixel and cache it produces exactly the
pixel it was chosen for, with the frame of a chunk, under either setting of `ENC_DELTA_WRAP` (with `true` by D6). A run of `n`,
executed where `n` pixels remain, produces exactly `n` pixels equal to `PREV` and sets no flag. -/
def Obligations.ChosenChunkReproducesPixel : Prop :=
  (∀ (p : Pixel) (s : State), (s.chooseChunk p).wf = true ∧ (s.chooseChunk p).position = .chunk ∧
    chunkPixels (s.chooseChunk p) s = [p]) ∧
  (∀ (p : Pixel) (s : State), s.phase = .dec → s.pixcnt < s.npix →
    ∃ t, exec (s.chooseChunk p) s = .next t ∧ OnePixelChunk s t (s.chooseChunk p).length p) ∧
  (∀ (n : Nat) (s : State), s.pixcnt + n ≤ s.npix → chunkPixels (.run n) s = List.replicate n s.prev) ∧
  (∀ (n : Nat) (s : State), 1 ≤ n → s.phase = .dec → s.pixcnt + n ≤ s.npix →
    ∃ t, exec (.run n) s = .next t ∧ ChunkFrame s t ∧ t.pout = s.pout ++ List.replicate n s.prev ∧
      t.prev = s.prev ∧ SlotWritten s t s.prev ∧ t.pixcnt = s.pixcnt + n ∧ t.diag = s.diag)

/-- What `chunkPixels` says an item produces is what executing it produces: where a chunk is admitted, `exec` commits exactly
those pixels, in that order. `LockStep` speaks of chunks through `chunkPixels`. -/
def Obligations.ExecutedChunkCommitsItsPixels : Prop :=
  ∀ (i : Instr) (s : State), i.position = .chunk → s.phase = .dec → s.pixcnt < s.npix →
    ∃ t, exec i s = .next t ∧
      t.pout = s.pout ++ chunkPixels i s ∧
      t.cache = (s.commitAll (chunkPixels i s)).cache ∧
      t.prev = (s.commitAll (chunkPixels i s)).prev ∧
      t.pixcnt = s.pixcnt + (chunkPixels i s).length ∧ t.pixcnt ≤ s.npix ∧
      t.ipos = s.ipos + i.length

/-- A delta of either setting, added modulo 256 (D6) to the channel it was taken from, gives the other channel back; a
reduced one is in -128..127. -/
def Obligations.DeltaAddedGivesChannelBack : Prop :=
  ∀ (wrap : Bool) (c prev : Byte),
    addDelta prev (channelDelta wrap c prev) = c ∧
    -255 ≤ channelDelta wrap c prev ∧ channelDelta wrap c prev ≤ 255 ∧
    (wrap = true → -128 ≤ channelDelta wrap c prev ∧ channelDelta wrap c prev ≤ 127)

/-- After `k` pixels of an Image the encoder's cache and previous pixel are those of the pixels alone. -/
def Obligations.EncoderStateFromPixels : Prop :=
  ∀ (img : Image) (s : State) (k : Nat), img.wf = true →
    s.phase = .idle ∨ s.phase = .done ∨ s.phase = .failed → k ≤ img.pix.length →
    ∃ e, runCommands (img.commandsTo k) s = .next e ∧ e.phase = .enc ∧ e.pixcnt = k ∧
      e.cache = cacheAfter (img.pixelsTo k) ∧ e.prev = prevAfter (img.pixelsTo k) ∧
      e.run ≤ k ∧ (img.pixelsTo k).drop (k - e.run) = List.replicate e.run e.prev

/-- The lock-step invariant: decoding what an encoder emitted, both sides' cache and previous pixel are identical at the same
pixel index, inside a run too. -/
def Obligations.LockStep : Prop :=
  ∀ (img : Image) (s e u d0 : State), img.wf = true →
    encodeImage img s = .next e → u.cfg.magic = s.cfg.magic → startDecode e.out.bytes u = .next d0 →
    ∀ (j : Nat) (d : State), decodeLoop j d0 = .next d →
      (∀ ek, runCommands (img.commandsTo d.pixcnt) s = .next ek → ek.cache = d.cache ∧ ek.prev = d.prev) ∧
      ∀ (i : Instr) (after : List Byte), d.pixcnt < d.npix →
        decode .chunk (d.input.window d.ipos 5) = .item i after →
        ∀ m, m ≤ (chunkPixels i d).length →
          ∀ ek, runCommands (img.commandsTo (d.pixcnt + m)) s = .next ek →
            ek.cache = (d.commitAll ((chunkPixels i d).take m)).cache ∧
            ek.prev = (d.commitAll ((chunkPixels i d).take m)).prev

/-- Round trip: decoding what was encoded gives the Image back, with no diagnostic, and the whole stream is consumed. It holds
for every `MAGIC` and either setting of `ENC_DELTA_WRAP`. -/
def Obligations.DecodeOfEncodeIsImage : Prop :=
  ∀ (img : Image) (s e u : State), img.wf = true →
    encodeImage img s = .next e →
    u.phase = .idle ∨ u.phase = .done ∨ u.phase = .failed → u.cfg.magic = s.cfg.magic →
    ∃ d, decodeStream e.out.bytes u = .next d ∧
      d.decodeAnswer = some (.image img ⟨false, false⟩) ∧ d.ipos = e.out.bytes.length

/-- What has been emitted lags behind by the pending run: the bytes emitted after `k` pixels decode to the first `k - RUN` of
them and are then exhausted. -/
def Obligations.OutputLagsByRun : Prop :=
  ∀ (img : Image) (s e u : State) (k : Nat), img.wf = true → k ≤ img.pix.length →
    runCommands (img.commandsTo k) s = .next e →
    u.phase = .idle ∨ u.phase = .done ∨ u.phase = .failed → u.cfg.magic = s.cfg.magic →
    ∃ d0 d j, startDecode e.out.bytes u = .next d0 ∧ decodeLoop j d0 = .next d ∧
      d.phase = .dec ∧ d.ipos = e.out.bytes.length ∧ d.pout = img.pixelsTo (k - e.run)

/-! ## Whole passes -/

/-- `encode` succeeds for every well-formed Image; its stream is at least 22 and at most `14 + 5 * NPIX + 8` bytes, starts with
the header and ends with the trailer. -/
def Obligations.EncodeSucceeds : Prop :=
  ∀ (img : Image) (s : State), img.wf = true →
    s.phase = .idle ∨ s.phase = .done ∨ s.phase = .failed →
    ∃ e chunks, encodeImage img s = .next e ∧ e.phase = .done ∧ e.err = .none ∧
      e.out.bytes = encode (.header s.cfg.magic img.w img.h img.ch img.cs) ++ chunks ++ [0, 0, 0, 0, 0, 0, 0, 1] ∧
      e.opos = e.out.bytes.length ∧
      22 ≤ e.opos ∧ e.opos ≤ 14 + 5 * (img.w.toNat * img.h.toNat) + 8

/-- `decode` ends on every input, in an Image of the right size or in an error; the loop needs no more rounds than there are
bytes. -/
def Obligations.DecodeEnds : Prop :=
  ∀ (bs : List Byte) (s : State), s.phase = .idle ∨ s.phase = .done ∨ s.phase = .failed →
    ∃ d, decodeStream bs s = .next d ∧
      ((∃ img diag, d.decodeAnswer = some (.image img diag) ∧
          img.pix.length = img.w.toNat * img.h.toNat ∧ d.ipos ≤ bs.length) ∨
        d.decodeAnswer = some (.error .format) ∨ d.decodeAnswer = some (.error .truncated))

/-- The stream of an encode pass and the answer of a decode pass do not depend on earlier passes: two instances with the same
parameters encode an Image to the same bytes and decode a stream to the same answer, whatever each has done before. (Of the
registers and outputs a pass leaves alone, such as `IPOS` and `POUT` in an encode pass, nothing is said: log entries 11, 12.) -/
def Obligations.PassIndependentOfPast : Prop :=
  ∀ (s u : State), s.cfg = u.cfg →
    s.phase = .idle ∨ s.phase = .done ∨ s.phase = .failed →
    u.phase = .idle ∨ u.phase = .done ∨ u.phase = .failed →
    (∀ img e, encodeImage img s = .next e →
      ∃ e', encodeImage img u = .next e' ∧ e'.out = e.out ∧ e'.opos = e.opos) ∧
    (∀ bs d, decodeStream bs s = .next d →
      ∃ d', decodeStream bs u = .next d' ∧ d'.decodeAnswer = d.decodeAnswer)

/-! ## Invariants and rules about every step -/

/-- The invariant holds after reset. (The registers it speaks of in a pass are not in one then.) -/
def Obligations.InvariantAtReset : Prop := Inv State.reset

/-- Every step keeps the invariant: streams keep their canonical form, `ERR` goes with `FAILED`, cache slots hold pixels of
their index, counters stay in their bounds, and a decode pass's cache is that of its pixels. -/
def Obligations.StepKeepsInvariant : Prop :=
  ∀ s t : State, Inv s → step s = .next t → Inv t

/-- Which register a command may write: any that is not listed for it is unchanged. (That `ENC_START` leaves `IPOS`, and that
`DEC_START` leaves `OPOS` unless it raises, is the model's reading of R34, R36 and R186: log entry 11.) -/
def Obligations.RegistersWrittenByListedCommands : Prop :=
  ∀ (c : Command) (s t : State), runCommand c s = .next t →
    (t.cache ≠ s.cache ∨ t.prev ≠ s.prev → c ≠ .encEnd ∧ c ≠ .decEnd) ∧
    (t.run ≠ s.run → c ≠ .encEnd ∧ c ≠ .decChunk ∧ c ≠ .decEnd) ∧
    (t.w ≠ s.w ∨ t.h ≠ s.h ∨ t.ch ≠ s.ch ∨ t.cs ≠ s.cs →
      c = .reset ∨ c = .decStart ∨ ∃ w h ch cs, c = .encStart w h ch cs) ∧
    (t.pixcnt ≠ s.pixcnt → c ≠ .encEnd ∧ c ≠ .decEnd) ∧
    (t.ipos ≠ s.ipos → c = .reset ∨ c = .decStart ∨ c = .decChunk ∨ c = .decEnd) ∧
    (t.opos ≠ s.opos → c ≠ .decChunk ∧ c ≠ .decEnd ∧ (c = .decStart → t.phase = .failed)) ∧
    (t.phase ≠ s.phase → ∀ p, c ≠ .encPixel p) ∧
    (t.err ≠ s.err → c ≠ .encEnd ∧ c ≠ .decEnd ∧ ∀ p, c ≠ .encPixel p) ∧
    (t.diag ≠ s.diag → c ≠ .encEnd ∧ ∀ p, c ≠ .encPixel p) ∧
    t.input = s.input ∧ t.moves = s.moves ∧ t.cfg = s.cfg

/-- What has been emitted stays: a step changes no byte of `OUT`, but that `ENC_START` begins it anew. -/
def Obligations.OutputNeverRewritten : Prop :=
  ∀ s t : State, step s = .next t →
    (∃ w h ch cs rest, s.moves = .issue (.encStart w h ch cs) :: rest) ∨
    ∀ a b, s.out.read a = some b → t.out.read a = some b

/-- The input is the host's: a step changes it only where the host presents another one, and never in a decode pass (D20).
Outside one, presenting bytes completes: `IN` holds exactly them and nothing else changes but the list of moves; in one it is
refused by name (the host's move is log entry 7). -/
def Obligations.InputStableInDecodePass : Prop :=
  (∀ s t : State, step s = .next t →
    (s.phase = .dec → t.input = s.input) ∧
    (t.input ≠ s.input → ∃ bs rest, s.moves = .present bs :: rest)) ∧
  ∀ (s : State) (bs : List Byte) (rest : List HostMove), s.moves = .present bs :: rest →
    ((HostMove.present bs).admitted s ↔ s.phase ≠ .dec) ∧
    ((HostMove.present bs).admitted s →
      ∃ t, step s = .next t ∧ (∀ a, t.input.read a = bs[a]?) ∧ t.input.bytes = bs ∧ t.input.len = bs.length ∧
        t.input.wf = true ∧ t.input.dense = true ∧ t = { s with moves := rest, input := t.input }) ∧
    (¬ (HostMove.present bs).admitted s → step s = .refused .inputInUse)

/-- `FAILED` is left only by `RESET`, `ENC_START` or `DEC_START` (admission: D22), and a step that leaves it clears `ERR`. -/
def Obligations.FailedLeftOnlyByRestart : Prop :=
  ∀ s t : State, s.phase = .failed → step s = .next t → t.phase ≠ .failed →
    t.err = .none ∧
    ∃ rest, s.moves = .issue .reset :: rest ∨ s.moves = .issue .decStart :: rest ∨
      ∃ w h ch cs, s.moves = .issue (.encStart w h ch cs) :: rest

/-- An error comes from the commands the taxonomy lists: `FORMAT` from `DEC_START`, `TRUNCATED` from `DEC_START` or
`DEC_CHUNK`; the encoder raises nothing. -/
def Obligations.ErrorsRaisedByListedCommands : Prop :=
  ∀ (c : Command) (s t : State), runCommand c s = .next t →
    (t.err = .format → s.err ≠ .format → c = .decStart) ∧
    (t.err = .truncated → s.err ≠ .truncated → c = .decStart ∨ c = .decChunk) ∧
    (t.phase = .failed → s.phase ≠ .failed → c = .decStart ∨ c = .decChunk)

/-- The internal invariant violation is unreachable (D21): no step raises it, as an error code or as a fault. -/
def Obligations.InternalErrorUnreachable : Prop :=
  (∀ s : State, NoFault s) ∧ ∀ s t : State, s.err ≠ .internal → step s = .next t → t.err ≠ .internal

/-- Once a pixel of the decode pass has been produced, a run changes no slot, and neither does an INDEX of a slot that holds
a pixel other than the zero pixel: the update that must still occur is idempotent there. -/
def Obligations.UpdateIdempotentOnRunAndHit : Prop :=
  ∀ s : State, Inv s → s.phase = .dec → s.pixcnt < s.npix →
    (0 < s.pixcnt → ∀ n, ∃ t, exec (.run n) s = .next t ∧ t.cache = s.cache) ∧
    (∀ i, lookup s.cache i ≠ Config.zeroPixel → ∃ t, exec (.index i) s = .next t ∧ t.cache = s.cache)

/-! ## Several instances (the set as a list, and moves that name a place in it, are log entry 16) -/

/-- What the host's list of moves makes of commands: as many steps as there are commands are those commands run one after the
other, and the list is left at what comes after them (log entry 4). -/
def Obligations.StepsRunCommandsInOrder : Prop :=
  ∀ (cs : List Command) (rest : List HostMove) (s t : State), s.moves = cs.map .issue ++ rest →
    (runSteps cs.length s = .next t ↔ runCommands cs { s with moves := rest } = .next t)

/-- After power-on every instance of a set is in `IDLE` with no error and no flag (D16), with its own parameters,
and with the machine's invariant. -/
def Obligations.InstancesPowerOnIdle : Prop :=
  ∀ cfgs : List Config, (System.powerOn cfgs).length = cfgs.length ∧
    ∀ (k : Nat) (cfg : Config), cfgs[k]? = some cfg → ∃ s, (System.powerOn cfgs)[k]? = some s ∧
      s.phase = .idle ∧ s.err = .none ∧ s.diag = ⟨false, false⟩ ∧ s.cfg = cfg ∧ Inv s

/-- Nothing is shared: a step of one instance is a step of it alone, has no step exactly where it has none, and leaves every
other instance as it was. Feeding one's output to another presents those bytes to it, and changes only its input; in a decode
pass of the receiver it is refused. -/
def Obligations.InstanceMoveTouchesNoOther : Prop :=
  (∀ (k : Nat) (sys : System) (s : State), sys[k]? = some s →
    (∀ t, step s = .next t → System.stepAt k sys = .next (sys.set k t)) ∧
    (∀ r, step s = .refused r → System.stepAt k sys = .refused r)) ∧
  (∀ (k : Nat) (sys sys' : System), System.stepAt k sys = .next sys' →
    sys'.length = sys.length ∧ ∀ j, j ≠ k → sys'[j]? = sys[j]?) ∧
  (∀ (i j : Nat) (sys : System) (s u : State), sys[i]? = some s → sys[j]? = some u →
    (u.phase ≠ .dec → ∃ v, System.feed i j sys = .next (sys.set j v) ∧
      v.input.bytes = s.out.bytes ∧ (∀ a, v.input.read a = s.out.bytes[a]?) ∧ v = { u with input := v.input }) ∧
    (u.phase = .dec → System.feed i j sys = .refused .inputInUse))

/-- The behaviour of a set of instances is the product of their individual behaviours: an interleaving of steps reaches a next
system exactly where each instance, alone, makes as many steps as are its share, and each ends as it does alone. -/
def Obligations.SystemIsProductOfInstances : Prop :=
  ∀ (ks : List Nat) (sys sys' : System),
    System.interleave ks sys = .next sys' ↔
      sys'.length = sys.length ∧
      ∀ (k : Nat) (s : State), sys[k]? = some s → ∃ t, runSteps (ks.count k) s = .next t ∧ sys'[k]? = some t

/-- Any interleaving gives the same results: two that give every instance the same number of steps reach the same system, or
neither reaches one. -/
def Obligations.InterleavingsAgree : Prop :=
  ∀ (ks ls : List Nat) (sys : System), (∀ k, k < sys.length → ks.count k = ls.count k) →
    ∀ sys', System.interleave ks sys = .next sys' ↔ System.interleave ls sys = .next sys'
end

