-- ==== Sys2Proof/Laws/Cache.lean ====
section
/-! SUPPORT. The laws of the Color Cache: what a lookup sees after an update, and what every update keeps. -/

namespace Sys2Proof.Machine

theorem lookup_update (cache : Cache) (p : Pixel) (j : Fin 64) :
    lookup (update cache p) j = if j = cacheIndex p then p else lookup cache j := by
  simp only [lookup, update, Fin.getElem_fin, Vector.getElem_set, Fin.ext_iff, eq_comm]

@[simp] theorem lookup_update_self (cache : Cache) (p : Pixel) : lookup (update cache p) (cacheIndex p) = p := by
  simp [lookup_update]

@[simp] theorem lookup_update_other (cache : Cache) (p : Pixel) {j : Fin 64} (h : j ≠ cacheIndex p) :
    lookup (update cache p) j = lookup cache j := by
  simp [lookup_update, h]

/-- Caches with equal slots are equal. -/
theorem cache_ext {c d : Cache} (h : ∀ j, lookup c j = lookup d j) : c = d := by
  apply Vector.ext
  intro i hi
  exact h ⟨i, hi⟩

@[simp] theorem lookup_freshCache (j : Fin 64) : lookup freshCache j = Config.zeroPixel := by
  simp [lookup, freshCache]

/-- The update is idempotent where the slot holds the pixel already (rule R95). -/
theorem update_of_lookup {cache : Cache} {p : Pixel} (h : lookup cache (cacheIndex p) = p) : update cache p = cache := by
  apply cache_ext
  intro j
  rw [lookup_update]
  split
  · rename_i hj; rw [hj, h]
  · rfl

theorem slotsIndexed_fresh : SlotsIndexed freshCache := fun i => .inl (by simp)

theorem slotsIndexed_update {cache : Cache} (h : SlotsIndexed cache) (p : Pixel) : SlotsIndexed (update cache p) := by
  intro i
  rw [lookup_update]
  split
  · rename_i hi; exact .inr hi.symm
  · exact h i

theorem slotsOpaque_fresh : SlotsOpaque freshCache := fun i => .inl (by simp)

theorem slotsOpaque_update {cache : Cache} (h : SlotsOpaque cache) {p : Pixel} (hp : p.a = 255) :
    SlotsOpaque (update cache p) := by
  intro i
  rw [lookup_update]
  split
  · exact .inr hp
  · exact h i

@[simp] theorem cacheAfter_nil : cacheAfter [] = freshCache := rfl

@[simp] theorem cacheAfter_append (ps : List Pixel) (p : Pixel) :
    cacheAfter (ps ++ [p]) = update (cacheAfter ps) p := by
  simp [cacheAfter]

@[simp] theorem prevAfter_nil : prevAfter [] = Config.prevInit := rfl

@[simp] theorem prevAfter_append (ps : List Pixel) (p : Pixel) : prevAfter (ps ++ [p]) = p := by
  simp [prevAfter]

/-- Every update after every other keeps rule R37 (a). -/
theorem slotsIndexed_foldl {ps : List Pixel} {cache : Cache} (h : SlotsIndexed cache) :
    SlotsIndexed (ps.foldl update cache) := by
  induction ps generalizing cache with
  | nil => exact h
  | cons p ps ih => exact ih (slotsIndexed_update h p)

/-- The last pixel stands in its slot (rule R37 (d)). -/
theorem lookup_foldl_last {ps : List Pixel} {cache : Cache} {q : Pixel} (h : lookup cache (cacheIndex q) = q) :
    lookup (ps.foldl update cache) (cacheIndex (ps.getLastD q)) = ps.getLastD q := by
  induction ps generalizing cache q with
  | nil => exact h
  | cons p ps ih =>
    have hl : (p :: ps).getLastD q = ps.getLastD p := by cases ps <;> rfl
    rw [hl]
    exact ih (lookup_update_self cache p)

theorem prevAfter_append_list (ps qs : List Pixel) : prevAfter (qs ++ ps) = ps.getLastD (prevAfter qs) := by
  rcases List.eq_nil_or_concat ps with h | ⟨l, q, h⟩
  · simp [h]
  · rw [h, List.concat_eq_append, ← List.append_assoc, prevAfter_append]
    simp

theorem cacheAfter_append_list (ps qs : List Pixel) : cacheAfter (qs ++ ps) = ps.foldl update (cacheAfter qs) := by
  simp [cacheAfter]

end Sys2Proof.Machine
end

