-- ==== Sys2Proof/Laws/State.lean ====
section
/-! SUPPORT. What each shared state update does to each field, so that no proof unfolds a record update. Registers that an
update leaves with a free value have no lemma. -/

namespace Sys2Proof.Machine

/-! ### `setEndBad` -/

@[simp] theorem State.setEndBad_cache (s : State) : s.setEndBad.cache = s.cache := rfl
@[simp] theorem State.setEndBad_prev (s : State) : s.setEndBad.prev = s.prev := rfl
@[simp] theorem State.setEndBad_run (s : State) : s.setEndBad.run = s.run := rfl
@[simp] theorem State.setEndBad_w (s : State) : s.setEndBad.w = s.w := rfl
@[simp] theorem State.setEndBad_h (s : State) : s.setEndBad.h = s.h := rfl
@[simp] theorem State.setEndBad_ch (s : State) : s.setEndBad.ch = s.ch := rfl
@[simp] theorem State.setEndBad_cs (s : State) : s.setEndBad.cs = s.cs := rfl
@[simp] theorem State.setEndBad_pixcnt (s : State) : s.setEndBad.pixcnt = s.pixcnt := rfl
@[simp] theorem State.setEndBad_ipos (s : State) : s.setEndBad.ipos = s.ipos := rfl
@[simp] theorem State.setEndBad_opos (s : State) : s.setEndBad.opos = s.opos := rfl
@[simp] theorem State.setEndBad_phase (s : State) : s.setEndBad.phase = s.phase := rfl
@[simp] theorem State.setEndBad_err (s : State) : s.setEndBad.err = s.err := rfl
@[simp] theorem State.setEndBad_diag (s : State) : s.setEndBad.diag = { s.diag with endBad := true } := rfl
@[simp] theorem State.setEndBad_input (s : State) : s.setEndBad.input = s.input := rfl
@[simp] theorem State.setEndBad_out (s : State) : s.setEndBad.out = s.out := rfl
@[simp] theorem State.setEndBad_pout (s : State) : s.setEndBad.pout = s.pout := rfl
@[simp] theorem State.setEndBad_moves (s : State) : s.setEndBad.moves = s.moves := rfl
@[simp] theorem State.setEndBad_cfg (s : State) : s.setEndBad.cfg = s.cfg := rfl
@[simp] theorem State.setEndBad_free (s : State) : s.setEndBad.free = s.free := rfl
@[simp] theorem State.setEndBad_npix (s : State) : s.setEndBad.npix = s.npix := rfl

/-! ### `emit` -/

@[simp] theorem State.emit_cache (bs : List Byte) (s : State) : (s.emit bs).cache = s.cache := rfl
@[simp] theorem State.emit_prev (bs : List Byte) (s : State) : (s.emit bs).prev = s.prev := rfl
@[simp] theorem State.emit_run (bs : List Byte) (s : State) : (s.emit bs).run = s.run := rfl
@[simp] theorem State.emit_w (bs : List Byte) (s : State) : (s.emit bs).w = s.w := rfl
@[simp] theorem State.emit_h (bs : List Byte) (s : State) : (s.emit bs).h = s.h := rfl
@[simp] theorem State.emit_ch (bs : List Byte) (s : State) : (s.emit bs).ch = s.ch := rfl
@[simp] theorem State.emit_cs (bs : List Byte) (s : State) : (s.emit bs).cs = s.cs := rfl
@[simp] theorem State.emit_pixcnt (bs : List Byte) (s : State) : (s.emit bs).pixcnt = s.pixcnt := rfl
@[simp] theorem State.emit_ipos (bs : List Byte) (s : State) : (s.emit bs).ipos = s.ipos := rfl
@[simp] theorem State.emit_opos (bs : List Byte) (s : State) : (s.emit bs).opos = s.opos + bs.length := rfl
@[simp] theorem State.emit_phase (bs : List Byte) (s : State) : (s.emit bs).phase = s.phase := rfl
@[simp] theorem State.emit_err (bs : List Byte) (s : State) : (s.emit bs).err = s.err := rfl
@[simp] theorem State.emit_diag (bs : List Byte) (s : State) : (s.emit bs).diag = s.diag := rfl
@[simp] theorem State.emit_input (bs : List Byte) (s : State) : (s.emit bs).input = s.input := rfl
@[simp] theorem State.emit_out (bs : List Byte) (s : State) : (s.emit bs).out = s.out.append bs := rfl
@[simp] theorem State.emit_pout (bs : List Byte) (s : State) : (s.emit bs).pout = s.pout := rfl
@[simp] theorem State.emit_moves (bs : List Byte) (s : State) : (s.emit bs).moves = s.moves := rfl
@[simp] theorem State.emit_cfg (bs : List Byte) (s : State) : (s.emit bs).cfg = s.cfg := rfl
@[simp] theorem State.emit_free (bs : List Byte) (s : State) : (s.emit bs).free = s.free := rfl
@[simp] theorem State.emit_npix (bs : List Byte) (s : State) : (s.emit bs).npix = s.npix := rfl

/-! ### `consume` -/

@[simp] theorem State.consume_cache (p : Pixel) (s : State) : (s.consume p).cache = update s.cache p := rfl
@[simp] theorem State.consume_prev (p : Pixel) (s : State) : (s.consume p).prev = p := rfl
@[simp] theorem State.consume_run (p : Pixel) (s : State) : (s.consume p).run = s.run := rfl
@[simp] theorem State.consume_w (p : Pixel) (s : State) : (s.consume p).w = s.w := rfl
@[simp] theorem State.consume_h (p : Pixel) (s : State) : (s.consume p).h = s.h := rfl
@[simp] theorem State.consume_ch (p : Pixel) (s : State) : (s.consume p).ch = s.ch := rfl
@[simp] theorem State.consume_cs (p : Pixel) (s : State) : (s.consume p).cs = s.cs := rfl
@[simp] theorem State.consume_pixcnt (p : Pixel) (s : State) : (s.consume p).pixcnt = s.pixcnt + 1 := rfl
@[simp] theorem State.consume_ipos (p : Pixel) (s : State) : (s.consume p).ipos = s.ipos := rfl
@[simp] theorem State.consume_opos (p : Pixel) (s : State) : (s.consume p).opos = s.opos := rfl
@[simp] theorem State.consume_phase (p : Pixel) (s : State) : (s.consume p).phase = s.phase := rfl
@[simp] theorem State.consume_err (p : Pixel) (s : State) : (s.consume p).err = s.err := rfl
@[simp] theorem State.consume_diag (p : Pixel) (s : State) : (s.consume p).diag = s.diag := rfl
@[simp] theorem State.consume_input (p : Pixel) (s : State) : (s.consume p).input = s.input := rfl
@[simp] theorem State.consume_out (p : Pixel) (s : State) : (s.consume p).out = s.out := rfl
@[simp] theorem State.consume_pout (p : Pixel) (s : State) : (s.consume p).pout = s.pout := rfl
@[simp] theorem State.consume_moves (p : Pixel) (s : State) : (s.consume p).moves = s.moves := rfl
@[simp] theorem State.consume_cfg (p : Pixel) (s : State) : (s.consume p).cfg = s.cfg := rfl
@[simp] theorem State.consume_free (p : Pixel) (s : State) : (s.consume p).free = s.free := rfl
@[simp] theorem State.consume_npix (p : Pixel) (s : State) : (s.consume p).npix = s.npix := rfl

/-! ### `commit` -/

@[simp] theorem State.commit_cache (p : Pixel) (s : State) : (s.commit p).cache = update s.cache p := rfl
@[simp] theorem State.commit_prev (p : Pixel) (s : State) : (s.commit p).prev = p := rfl
@[simp] theorem State.commit_run (p : Pixel) (s : State) : (s.commit p).run = s.run := rfl
@[simp] theorem State.commit_w (p : Pixel) (s : State) : (s.commit p).w = s.w := rfl
@[simp] theorem State.commit_h (p : Pixel) (s : State) : (s.commit p).h = s.h := rfl
@[simp] theorem State.commit_ch (p : Pixel) (s : State) : (s.commit p).ch = s.ch := rfl
@[simp] theorem State.commit_cs (p : Pixel) (s : State) : (s.commit p).cs = s.cs := rfl
@[simp] theorem State.commit_pixcnt (p : Pixel) (s : State) : (s.commit p).pixcnt = s.pixcnt + 1 := rfl
@[simp] theorem State.commit_ipos (p : Pixel) (s : State) : (s.commit p).ipos = s.ipos := rfl
@[simp] theorem State.commit_opos (p : Pixel) (s : State) : (s.commit p).opos = s.opos := rfl
@[simp] theorem State.commit_phase (p : Pixel) (s : State) : (s.commit p).phase = s.phase := rfl
@[simp] theorem State.commit_err (p : Pixel) (s : State) : (s.commit p).err = s.err := rfl
@[simp] theorem State.commit_diag (p : Pixel) (s : State) : (s.commit p).diag = s.diag := rfl
@[simp] theorem State.commit_input (p : Pixel) (s : State) : (s.commit p).input = s.input := rfl
@[simp] theorem State.commit_out (p : Pixel) (s : State) : (s.commit p).out = s.out := rfl
@[simp] theorem State.commit_pout (p : Pixel) (s : State) : (s.commit p).pout = s.pout ++ [p] := rfl
@[simp] theorem State.commit_moves (p : Pixel) (s : State) : (s.commit p).moves = s.moves := rfl
@[simp] theorem State.commit_cfg (p : Pixel) (s : State) : (s.commit p).cfg = s.cfg := rfl
@[simp] theorem State.commit_free (p : Pixel) (s : State) : (s.commit p).free = s.free := rfl
@[simp] theorem State.commit_npix (p : Pixel) (s : State) : (s.commit p).npix = s.npix := rfl

/-! ### `advance` -/

@[simp] theorem State.advance_cache (n : Nat) (s : State) : (s.advance n).cache = s.cache := rfl
@[simp] theorem State.advance_prev (n : Nat) (s : State) : (s.advance n).prev = s.prev := rfl
@[simp] theorem State.advance_run (n : Nat) (s : State) : (s.advance n).run = s.run := rfl
@[simp] theorem State.advance_w (n : Nat) (s : State) : (s.advance n).w = s.w := rfl
@[simp] theorem State.advance_h (n : Nat) (s : State) : (s.advance n).h = s.h := rfl
@[simp] theorem State.advance_ch (n : Nat) (s : State) : (s.advance n).ch = s.ch := rfl
@[simp] theorem State.advance_cs (n : Nat) (s : State) : (s.advance n).cs = s.cs := rfl
@[simp] theorem State.advance_pixcnt (n : Nat) (s : State) : (s.advance n).pixcnt = s.pixcnt := rfl
@[simp] theorem State.advance_ipos (n : Nat) (s : State) : (s.advance n).ipos = s.ipos + n := rfl
@[simp] theorem State.advance_opos (n : Nat) (s : State) : (s.advance n).opos = s.opos := rfl
@[simp] theorem State.advance_phase (n : Nat) (s : State) : (s.advance n).phase = s.phase := rfl
@[simp] theorem State.advance_err (n : Nat) (s : State) : (s.advance n).err = s.err := rfl
@[simp] theorem State.advance_diag (n : Nat) (s : State) : (s.advance n).diag = s.diag := rfl
@[simp] theorem State.advance_input (n : Nat) (s : State) : (s.advance n).input = s.input := rfl
@[simp] theorem State.advance_out (n : Nat) (s : State) : (s.advance n).out = s.out := rfl
@[simp] theorem State.advance_pout (n : Nat) (s : State) : (s.advance n).pout = s.pout := rfl
@[simp] theorem State.advance_moves (n : Nat) (s : State) : (s.advance n).moves = s.moves := rfl
@[simp] theorem State.advance_cfg (n : Nat) (s : State) : (s.advance n).cfg = s.cfg := rfl
@[simp] theorem State.advance_free (n : Nat) (s : State) : (s.advance n).free = s.free := rfl
@[simp] theorem State.advance_npix (n : Nat) (s : State) : (s.advance n).npix = s.npix := rfl

/-! ### `beginPass` -/

@[simp] theorem State.beginPass_cache (w h : Dim) (ch cs : Byte) (s : State) : (s.beginPass w h ch cs).cache = freshCache := rfl
@[simp] theorem State.beginPass_prev (w h : Dim) (ch cs : Byte) (s : State) : (s.beginPass w h ch cs).prev = Config.prevInit := rfl
@[simp] theorem State.beginPass_run (w h : Dim) (ch cs : Byte) (s : State) : (s.beginPass w h ch cs).run = 0 := rfl
@[simp] theorem State.beginPass_w (w h : Dim) (ch cs : Byte) (s : State) : (s.beginPass w h ch cs).w = w := rfl
@[simp] theorem State.beginPass_h (w h : Dim) (ch cs : Byte) (s : State) : (s.beginPass w h ch cs).h = h := rfl
@[simp] theorem State.beginPass_ch (w h : Dim) (ch cs : Byte) (s : State) : (s.beginPass w h ch cs).ch = ch := rfl
@[simp] theorem State.beginPass_cs (w h : Dim) (ch cs : Byte) (s : State) : (s.beginPass w h ch cs).cs = cs := rfl
@[simp] theorem State.beginPass_pixcnt (w h : Dim) (ch cs : Byte) (s : State) : (s.beginPass w h ch cs).pixcnt = 0 := rfl
@[simp] theorem State.beginPass_ipos (w h : Dim) (ch cs : Byte) (s : State) : (s.beginPass w h ch cs).ipos = s.ipos := rfl
@[simp] theorem State.beginPass_opos (w h : Dim) (ch cs : Byte) (s : State) : (s.beginPass w h ch cs).opos = s.opos := rfl
@[simp] theorem State.beginPass_phase (w h : Dim) (ch cs : Byte) (s : State) : (s.beginPass w h ch cs).phase = s.phase := rfl
@[simp] theorem State.beginPass_err (w h : Dim) (ch cs : Byte) (s : State) : (s.beginPass w h ch cs).err = .none := rfl
@[simp] theorem State.beginPass_diag (w h : Dim) (ch cs : Byte) (s : State) : (s.beginPass w h ch cs).diag = Diag.clear := rfl
@[simp] theorem State.beginPass_input (w h : Dim) (ch cs : Byte) (s : State) : (s.beginPass w h ch cs).input = s.input := rfl
@[simp] theorem State.beginPass_out (w h : Dim) (ch cs : Byte) (s : State) : (s.beginPass w h ch cs).out = s.out := rfl
@[simp] theorem State.beginPass_pout (w h : Dim) (ch cs : Byte) (s : State) : (s.beginPass w h ch cs).pout = s.pout := rfl
@[simp] theorem State.beginPass_moves (w h : Dim) (ch cs : Byte) (s : State) : (s.beginPass w h ch cs).moves = s.moves := rfl
@[simp] theorem State.beginPass_cfg (w h : Dim) (ch cs : Byte) (s : State) : (s.beginPass w h ch cs).cfg = s.cfg := rfl
@[simp] theorem State.beginPass_free (w h : Dim) (ch cs : Byte) (s : State) : (s.beginPass w h ch cs).free = s.free := rfl

/-! ### `raise` -/

@[simp] theorem State.raise_cache (e : Err) (s : State) : (s.raise e).cache = s.cache := rfl
@[simp] theorem State.raise_prev (e : Err) (s : State) : (s.raise e).prev = s.prev := rfl
@[simp] theorem State.raise_run (e : Err) (s : State) : (s.raise e).run = s.run := rfl
@[simp] theorem State.raise_w (e : Err) (s : State) : (s.raise e).w = s.w := rfl
@[simp] theorem State.raise_h (e : Err) (s : State) : (s.raise e).h = s.h := rfl
@[simp] theorem State.raise_ch (e : Err) (s : State) : (s.raise e).ch = s.ch := rfl
@[simp] theorem State.raise_cs (e : Err) (s : State) : (s.raise e).cs = s.cs := rfl
@[simp] theorem State.raise_pixcnt (e : Err) (s : State) : (s.raise e).pixcnt = s.pixcnt := rfl
@[simp] theorem State.raise_ipos (e : Err) (s : State) : (s.raise e).ipos = s.ipos := rfl
@[simp] theorem State.raise_opos (e : Err) (s : State) : (s.raise e).opos = s.opos := rfl
@[simp] theorem State.raise_phase (e : Err) (s : State) : (s.raise e).phase = .failed := rfl
@[simp] theorem State.raise_err (e : Err) (s : State) : (s.raise e).err = e := rfl
@[simp] theorem State.raise_diag (e : Err) (s : State) : (s.raise e).diag = s.diag := rfl
@[simp] theorem State.raise_input (e : Err) (s : State) : (s.raise e).input = s.input := rfl
@[simp] theorem State.raise_out (e : Err) (s : State) : (s.raise e).out = s.out := rfl
@[simp] theorem State.raise_pout (e : Err) (s : State) : (s.raise e).pout = s.pout := rfl
@[simp] theorem State.raise_moves (e : Err) (s : State) : (s.raise e).moves = s.moves := rfl
@[simp] theorem State.raise_cfg (e : Err) (s : State) : (s.raise e).cfg = s.cfg := rfl
@[simp] theorem State.raise_free (e : Err) (s : State) : (s.raise e).free = s.free := rfl
@[simp] theorem State.raise_npix (e : Err) (s : State) : (s.raise e).npix = s.npix := rfl

/-! ### `clobber` -/

@[simp] theorem State.clobber_phase (s : State) : s.clobber.phase = s.phase := rfl
@[simp] theorem State.clobber_err (s : State) : s.clobber.err = s.err := rfl
@[simp] theorem State.clobber_diag (s : State) : s.clobber.diag = s.diag := rfl
@[simp] theorem State.clobber_input (s : State) : s.clobber.input = s.input := rfl
@[simp] theorem State.clobber_out (s : State) : s.clobber.out = s.out := rfl
@[simp] theorem State.clobber_pout (s : State) : s.clobber.pout = s.pout := rfl
@[simp] theorem State.clobber_moves (s : State) : s.clobber.moves = s.moves := rfl
@[simp] theorem State.clobber_cfg (s : State) : s.clobber.cfg = s.cfg := rfl
@[simp] theorem State.clobber_free (s : State) : s.clobber.free = s.free.next := rfl

/-! ### `raiseAtStart` -/

@[simp] theorem State.raiseAtStart_phase (e : Err) (s : State) : (s.raiseAtStart e).phase = .failed := rfl
@[simp] theorem State.raiseAtStart_err (e : Err) (s : State) : (s.raiseAtStart e).err = e := rfl
@[simp] theorem State.raiseAtStart_diag (e : Err) (s : State) : (s.raiseAtStart e).diag = Diag.clear := rfl
@[simp] theorem State.raiseAtStart_input (e : Err) (s : State) : (s.raiseAtStart e).input = s.input := rfl
@[simp] theorem State.raiseAtStart_out (e : Err) (s : State) : (s.raiseAtStart e).out = s.out := rfl
@[simp] theorem State.raiseAtStart_pout (e : Err) (s : State) : (s.raiseAtStart e).pout = [] := rfl
@[simp] theorem State.raiseAtStart_moves (e : Err) (s : State) : (s.raiseAtStart e).moves = s.moves := rfl
@[simp] theorem State.raiseAtStart_cfg (e : Err) (s : State) : (s.raiseAtStart e).cfg = s.cfg := rfl
@[simp] theorem State.raiseAtStart_free (e : Err) (s : State) : (s.raiseAtStart e).free = s.free.next := rfl

/-! ### `beginDecode` -/

@[simp] theorem State.beginDecode_cache (w h : Dim) (ch cs : Byte) (s : State) : (s.beginDecode w h ch cs).cache = freshCache := rfl
@[simp] theorem State.beginDecode_prev (w h : Dim) (ch cs : Byte) (s : State) : (s.beginDecode w h ch cs).prev = Config.prevInit := rfl
@[simp] theorem State.beginDecode_run (w h : Dim) (ch cs : Byte) (s : State) : (s.beginDecode w h ch cs).run = 0 := rfl
@[simp] theorem State.beginDecode_w (w h : Dim) (ch cs : Byte) (s : State) : (s.beginDecode w h ch cs).w = w := rfl
@[simp] theorem State.beginDecode_h (w h : Dim) (ch cs : Byte) (s : State) : (s.beginDecode w h ch cs).h = h := rfl
@[simp] theorem State.beginDecode_ch (w h : Dim) (ch cs : Byte) (s : State) : (s.beginDecode w h ch cs).ch = ch := rfl
@[simp] theorem State.beginDecode_cs (w h : Dim) (ch cs : Byte) (s : State) : (s.beginDecode w h ch cs).cs = cs := rfl
@[simp] theorem State.beginDecode_pixcnt (w h : Dim) (ch cs : Byte) (s : State) : (s.beginDecode w h ch cs).pixcnt = 0 := rfl
@[simp] theorem State.beginDecode_ipos (w h : Dim) (ch cs : Byte) (s : State) : (s.beginDecode w h ch cs).ipos = 14 := rfl
@[simp] theorem State.beginDecode_opos (w h : Dim) (ch cs : Byte) (s : State) : (s.beginDecode w h ch cs).opos = s.opos := rfl
@[simp] theorem State.beginDecode_phase (w h : Dim) (ch cs : Byte) (s : State) : (s.beginDecode w h ch cs).phase = .dec := rfl
@[simp] theorem State.beginDecode_err (w h : Dim) (ch cs : Byte) (s : State) : (s.beginDecode w h ch cs).err = .none := rfl
@[simp] theorem State.beginDecode_diag (w h : Dim) (ch cs : Byte) (s : State) : (s.beginDecode w h ch cs).diag = Diag.clear := rfl
@[simp] theorem State.beginDecode_input (w h : Dim) (ch cs : Byte) (s : State) : (s.beginDecode w h ch cs).input = s.input := rfl
@[simp] theorem State.beginDecode_out (w h : Dim) (ch cs : Byte) (s : State) : (s.beginDecode w h ch cs).out = s.out := rfl
@[simp] theorem State.beginDecode_pout (w h : Dim) (ch cs : Byte) (s : State) : (s.beginDecode w h ch cs).pout = [] := rfl
@[simp] theorem State.beginDecode_moves (w h : Dim) (ch cs : Byte) (s : State) : (s.beginDecode w h ch cs).moves = s.moves := rfl
@[simp] theorem State.beginDecode_cfg (w h : Dim) (ch cs : Byte) (s : State) : (s.beginDecode w h ch cs).cfg = s.cfg := rfl
@[simp] theorem State.beginDecode_free (w h : Dim) (ch cs : Byte) (s : State) : (s.beginDecode w h ch cs).free = s.free := rfl

/-! ### `flushRun` -/

@[simp] theorem State.flushRun_cache (s : State) : s.flushRun.cache = s.cache := rfl
@[simp] theorem State.flushRun_prev (s : State) : s.flushRun.prev = s.prev := rfl
@[simp] theorem State.flushRun_run (s : State) : s.flushRun.run = 0 := rfl
@[simp] theorem State.flushRun_w (s : State) : s.flushRun.w = s.w := rfl
@[simp] theorem State.flushRun_h (s : State) : s.flushRun.h = s.h := rfl
@[simp] theorem State.flushRun_ch (s : State) : s.flushRun.ch = s.ch := rfl
@[simp] theorem State.flushRun_cs (s : State) : s.flushRun.cs = s.cs := rfl
@[simp] theorem State.flushRun_pixcnt (s : State) : s.flushRun.pixcnt = s.pixcnt := rfl
@[simp] theorem State.flushRun_ipos (s : State) : s.flushRun.ipos = s.ipos := rfl
@[simp] theorem State.flushRun_opos (s : State) : s.flushRun.opos = s.opos + 1 := rfl
@[simp] theorem State.flushRun_phase (s : State) : s.flushRun.phase = s.phase := rfl
@[simp] theorem State.flushRun_err (s : State) : s.flushRun.err = s.err := rfl
@[simp] theorem State.flushRun_diag (s : State) : s.flushRun.diag = s.diag := rfl
@[simp] theorem State.flushRun_input (s : State) : s.flushRun.input = s.input := rfl
@[simp] theorem State.flushRun_out (s : State) : s.flushRun.out = s.out.append (encode (.run s.run)) := rfl
@[simp] theorem State.flushRun_pout (s : State) : s.flushRun.pout = s.pout := rfl
@[simp] theorem State.flushRun_moves (s : State) : s.flushRun.moves = s.moves := rfl
@[simp] theorem State.flushRun_cfg (s : State) : s.flushRun.cfg = s.cfg := rfl
@[simp] theorem State.flushRun_free (s : State) : s.flushRun.free = s.free := rfl
@[simp] theorem State.flushRun_npix (s : State) : s.flushRun.npix = s.npix := rfl

/-! ### `flagOverrun` -/

@[simp] theorem State.flagOverrun_cache (a r : Nat) (s : State) : (s.flagOverrun a r).cache = s.cache := by
  unfold State.flagOverrun; split <;> rfl
@[simp] theorem State.flagOverrun_prev (a r : Nat) (s : State) : (s.flagOverrun a r).prev = s.prev := by
  unfold State.flagOverrun; split <;> rfl
@[simp] theorem State.flagOverrun_run (a r : Nat) (s : State) : (s.flagOverrun a r).run = s.run := by
  unfold State.flagOverrun; split <;> rfl
@[simp] theorem State.flagOverrun_w (a r : Nat) (s : State) : (s.flagOverrun a r).w = s.w := by
  unfold State.flagOverrun; split <;> rfl
@[simp] theorem State.flagOverrun_h (a r : Nat) (s : State) : (s.flagOverrun a r).h = s.h := by
  unfold State.flagOverrun; split <;> rfl
@[simp] theorem State.flagOverrun_ch (a r : Nat) (s : State) : (s.flagOverrun a r).ch = s.ch := by
  unfold State.flagOverrun; split <;> rfl
@[simp] theorem State.flagOverrun_cs (a r : Nat) (s : State) : (s.flagOverrun a r).cs = s.cs := by
  unfold State.flagOverrun; split <;> rfl
@[simp] theorem State.flagOverrun_pixcnt (a r : Nat) (s : State) : (s.flagOverrun a r).pixcnt = s.pixcnt := by
  unfold State.flagOverrun; split <;> rfl
@[simp] theorem State.flagOverrun_ipos (a r : Nat) (s : State) : (s.flagOverrun a r).ipos = s.ipos := by
  unfold State.flagOverrun; split <;> rfl
@[simp] theorem State.flagOverrun_opos (a r : Nat) (s : State) : (s.flagOverrun a r).opos = s.opos := by
  unfold State.flagOverrun; split <;> rfl
@[simp] theorem State.flagOverrun_phase (a r : Nat) (s : State) : (s.flagOverrun a r).phase = s.phase := by
  unfold State.flagOverrun; split <;> rfl
@[simp] theorem State.flagOverrun_err (a r : Nat) (s : State) : (s.flagOverrun a r).err = s.err := by
  unfold State.flagOverrun; split <;> rfl
@[simp] theorem State.flagOverrun_input (a r : Nat) (s : State) : (s.flagOverrun a r).input = s.input := by
  unfold State.flagOverrun; split <;> rfl
@[simp] theorem State.flagOverrun_out (a r : Nat) (s : State) : (s.flagOverrun a r).out = s.out := by
  unfold State.flagOverrun; split <;> rfl
@[simp] theorem State.flagOverrun_pout (a r : Nat) (s : State) : (s.flagOverrun a r).pout = s.pout := by
  unfold State.flagOverrun; split <;> rfl
@[simp] theorem State.flagOverrun_moves (a r : Nat) (s : State) : (s.flagOverrun a r).moves = s.moves := by
  unfold State.flagOverrun; split <;> rfl
@[simp] theorem State.flagOverrun_cfg (a r : Nat) (s : State) : (s.flagOverrun a r).cfg = s.cfg := by
  unfold State.flagOverrun; split <;> rfl
@[simp] theorem State.flagOverrun_free (a r : Nat) (s : State) : (s.flagOverrun a r).free = s.free := by
  unfold State.flagOverrun; split <;> rfl
@[simp] theorem State.flagOverrun_npix (a r : Nat) (s : State) : (s.flagOverrun a r).npix = s.npix := by
  simp [State.npix]

@[simp] theorem State.flagOverrun_endBad (a r : Nat) (s : State) :
    (s.flagOverrun a r).diag.endBad = s.diag.endBad := by
  unfold State.flagOverrun; split <;> rfl

@[simp] theorem State.flagOverrun_runOverrun (a r : Nat) (s : State) :
    (s.flagOverrun a r).diag.runOverrun = (s.diag.runOverrun || decide (r < a)) := by
  unfold State.flagOverrun; split <;> simp_all

end Sys2Proof.Machine
end

