-- ==== Sys2Proof/Laws/Chunks.lean ====
section
/-! SUPPORT. Committing pixels, and the one thing a chunk does: commit its pixels and advance. -/

namespace Sys2Proof.Machine

/-! ## `commitAll` -/

@[simp] theorem commitAll_nil (s : State) : s.commitAll [] = s := rfl

@[simp] theorem commitAll_cons (p : Pixel) (ps : List Pixel) (s : State) :
    s.commitAll (p :: ps) = (s.commit p).commitAll ps := rfl

theorem commitAll_append (ps qs : List Pixel) (s : State) :
    s.commitAll (ps ++ qs) = (s.commitAll ps).commitAll qs := by
  induction ps generalizing s with
  | nil => rfl
  | cons p ps ih => exact ih (s.commit p)

/-- Committing pixels changes `CACHE`, `PREV`, `PIXCNT` and `POUT`, each as the pixels say, and nothing else. -/
theorem commitAll_eq (ps : List Pixel) (s : State) :
    s.commitAll ps = { s with
      cache := ps.foldl update s.cache, prev := ps.getLastD s.prev,
      pixcnt := s.pixcnt + ps.length, pout := s.pout ++ ps } := by
  induction ps generalizing s with
  | nil => simp
  | cons p ps ih =>
    have hl : (p :: ps).getLastD s.prev = ps.getLastD p := by cases ps <;> rfl
    rw [commitAll_cons, ih, hl]
    simp only [State.commit, State.consume, List.foldl_cons, List.length_cons, List.append_assoc,
      List.singleton_append, State.mk.injEq, and_true, true_and]
    omega

/-- Repeating a pixel writes its slot and no other; the repetitions after the first change nothing (rule R95). -/
theorem foldl_update_replicate (n : Nat) (p : Pixel) (cache : Cache) :
    (List.replicate (n + 1) p).foldl update cache = update cache p := by
  induction n with
  | zero => rfl
  | succ n ih =>
    rw [List.replicate_succ', List.foldl_append, ih]
    exact update_of_lookup (lookup_update_self cache p)

/-! ## Admission -/

@[simp] theorem chunkAdmitted_iff (s : State) : s.chunkAdmitted = true ↔ s.phase = .dec ∧ s.pixcnt < s.npix := by
  simp [State.chunkAdmitted]

@[simp] theorem decEndAdmitted_iff (s : State) : s.decEndAdmitted = true ↔ s.phase = .dec ∧ s.pixcnt = s.npix := by
  simp [State.decEndAdmitted]

@[simp] theorem pixelAdmitted_iff (s : State) : s.pixelAdmitted = true ↔ s.phase = .enc ∧ s.pixcnt < s.npix := by
  simp [State.pixelAdmitted]

@[simp] theorem encEndAdmitted_iff (s : State) : s.encEndAdmitted = true ↔ s.phase = .enc ∧ s.pixcnt = s.npix := by
  simp [State.encEndAdmitted]

@[simp] theorem startAdmitted_iff (s : State) :
    s.startAdmitted = true ↔ s.phase = .idle ∨ s.phase = .done ∨ s.phase = .failed := by
  simp [State.startAdmitted, or_assoc]

theorem require_of {a : Bool} (h : a = true) (c : Command) (r : Result) : require a c r = r := by
  simp [require, h]

theorem require_not {a : Bool} (h : ¬ a = true) (c : Command) (r : Result) : require a c r = .refused (.notAdmitted c) := by
  simp [require, h]

/-- If `require` lets a next state through, the command was admitted. -/
theorem require_next {a : Bool} {c : Command} {r : Result} {t : State} (h : require a c r = .next t) :
    a = true ∧ r = .next t := by
  unfold require at h
  split at h
  · exact ⟨‹_›, h⟩
  · cases h

/-! ## What executing a chunk can do -/

/-- Before the pixels are committed, RUN may set its flag (rule R107); the other chunks change nothing. -/
def beforeCommit (i : Instr) (s : State) : State :=
  match i with
  | .run n => s.flagOverrun n (s.npix - s.pixcnt)
  | .rgb _ _ _ => s
  | .rgba _ _ _ _ => s
  | .index _ => s
  | .diff _ _ _ => s
  | .luma _ _ _ => s
  | .header _ _ _ _ _ => s
  | .endMarker => s

/-- Every chunk, where it is admitted, commits the pixels it produces and advances by its length. -/
theorem exec_chunk {i : Instr} (hi : i.position = .chunk) {s : State} (h : s.chunkAdmitted = true) :
    exec i s = .next (((beforeCommit i s).commitAll (chunkPixels i s)).advance i.length) := by
  cases i with
  | run n =>
    have : (s.flagOverrun n (s.npix - s.pixcnt)).chunkAdmitted = true := by simpa using h
    exact require_of this _ _
  | header => cases hi
  | endMarker => cases hi
  | _ => exact require_of h _ _

/-- No chunk has a step where none is admitted. -/
theorem exec_chunk_refused {i : Instr} (hi : i.position = .chunk) {s : State} (h : ¬ s.chunkAdmitted = true) :
    exec i s = .refused (.notAdmitted .decChunk) := by
  cases i with
  | run n =>
    have : ¬ (s.flagOverrun n (s.npix - s.pixcnt)).chunkAdmitted = true := by simpa using h
    exact require_not this _ _
  | header => cases hi
  | endMarker => cases hi
  | _ => exact require_not h _ _

/-- A chunk produces no more pixels than remain, where one is admitted. -/
theorem chunkPixels_length {i : Instr} (hi : i.position = .chunk) {s : State} (h : s.pixcnt < s.npix) :
    s.pixcnt + (chunkPixels i s).length ≤ s.npix := by
  cases i with
  | run n => simp [chunkPixels]; omega
  | header => cases hi
  | endMarker => cases hi
  | _ => simp [chunkPixels]; omega

end Sys2Proof.Machine
end

