-- ==== Sys2Proof/Laws/Decode.lean ====
section
/-! SUPPORT. The laws of the byte fields and of decoding. -/

namespace Sys2Proof

/-! ## Fields -/

theorem bits_lt (b : Byte) (hi lo : Nat) : bits b hi lo < 2 ^ (hi - lo + 1) := Nat.mod_lt _ (Nat.two_pow_pos _)

/-- `x` is in `lo..hi` (rule R10). -/
@[simp] theorem inRange_iff (lo hi x : Int) : inRange lo hi x = true ↔ lo ≤ x ∧ x ≤ hi := by
  simp [inRange]

@[simp] theorem legalChannels_iff (ch : Byte) : legalChannels ch = true ↔ ch = 3 ∨ ch = 4 := by
  simp [legalChannels]

@[simp] theorem legalColorspace_iff (cs : Byte) : legalColorspace cs = true ↔ cs = 0 ∨ cs = 1 := by
  simp [legalColorspace]

/-- The byte `n` as a number, for `n` in 0..255. -/
theorem toNat_ofInt {n : Int} (h0 : 0 ≤ n) (h1 : n < 256) : (BitVec.ofInt 8 n).toNat = n.toNat := by
  simp only [BitVec.toNat_ofInt]
  omega

/-! ## `classify` by the value of the byte (rule R65) -/

theorem classify_eq (b : Byte) : classify b =
    if b.toNat < 64 then .index else if b.toNat < 128 then .diff else if b.toNat < 192 then .luma
    else if b.toNat < 254 then .run else if b.toNat = 254 then .rgb else .rgba := by
  revert b; decide

/-! ## Lengths -/

@[simp] theorem be32_length (v : Dim) : (be32 v).length = 4 := rfl

theorem be32_fromBe32 (b0 b1 b2 b3 : Byte) : be32 (fromBe32 b0 b1 b2 b3) = [b0, b1, b2, b3] := by
  have h0 := b0.isLt; have h1 := b1.isLt; have h2 := b2.isLt; have h3 := b3.isLt
  simp only [be32, fromBe32, BitVec.toNat_ofNat, List.cons.injEq, and_true]
  refine ⟨?_, ?_, ?_, ?_⟩ <;> apply BitVec.eq_of_toNat_eq <;> simp only [BitVec.toNat_ofNat] <;> omega

theorem fromBe32_be32 (v : Dim) :
    fromBe32 (BitVec.ofNat 8 (v.toNat / 2 ^ 24)) (BitVec.ofNat 8 (v.toNat / 2 ^ 16))
      (BitVec.ofNat 8 (v.toNat / 2 ^ 8)) (BitVec.ofNat 8 v.toNat) = v := by
  have h := v.isLt
  apply BitVec.eq_of_toNat_eq
  simp only [fromBe32, BitVec.toNat_ofNat]
  omega

theorem or_low_byte (a : Nat) {b : Nat} (h : b < 2 ^ 8) : a <<< 8 ||| b = a * 2 ^ 8 + b := by
  rw [Nat.shiftLeft_eq, Nat.mul_comm, Nat.two_pow_add_eq_or_of_lt h]

theorem fromBe32_append (b0 b1 b2 b3 : Byte) : fromBe32 b0 b1 b2 b3 = b0 ++ b1 ++ b2 ++ b3 := by
  have h0 := b0.isLt; have h1 := b1.isLt; have h2 := b2.isLt; have h3 := b3.isLt
  apply BitVec.eq_of_toNat_eq
  simp only [fromBe32, BitVec.toNat_append, BitVec.toNat_ofNat, or_low_byte _ h1, or_low_byte _ h2, or_low_byte _ h3]
  omega

/-! ## What decoding a chunk can answer -/

/-- If bytes decode to a chunk, it is a chunk, and the bytes after it are those past its length. -/
theorem decodeChunk_item {bs : List Byte} {i : Instr} {rest : List Byte} (h : decodeChunk bs = .item i rest) :
    i.position = .chunk ∧ i.length ≤ bs.length ∧ rest = bs.drop i.length := by
  cases bs with
  | nil => cases h
  | cons b0 bs =>
    simp only [decodeChunk] at h
    split at h
    · cases h; exact ⟨rfl, by simp [decodeIndex, Instr.length], rfl⟩
    · cases h; exact ⟨rfl, by simp [decodeDiff, Instr.length], rfl⟩
    · cases h; exact ⟨rfl, by simp [decodeRun, Instr.length], rfl⟩
    · split at h <;> cases h
      exact ⟨rfl, by simp [decodeLuma, Instr.length], rfl⟩
    · split at h <;> cases h
      exact ⟨rfl, by simp [Instr.length], rfl⟩
    · split at h <;> cases h
      exact ⟨rfl, by simp [Instr.length], rfl⟩

/-- If bytes decode to a header, it is one, and 14 bytes were there. -/
theorem decodeHeader_item {bs : List Byte} {i : Instr} {rest : List Byte} (h : decodeHeader bs = .item i rest) :
    ∃ m w hgt ch cs, i = .header m w hgt ch cs := by
  unfold decodeHeader at h
  split at h <;> cases h
  exact ⟨_, _, _, _, _, rfl⟩

end Sys2Proof
end

