-- ==== Sys2Proof/Laws/Commands.lean ====
section
/-! SUPPORT. What a command can do, said once: `CommandStep` lists every way a command reaches a next state, and every
invariant is a case analysis of it. -/

namespace Sys2Proof.Machine

/-- The state after an accepted chunk. -/
def afterChunk (i : Instr) (s : State) : State :=
  ((beforeCommit i s).commitAll (chunkPixels i s)).advance i.length

/-- An accepted chunk, field by field. -/
theorem afterChunk_eq (i : Instr) (s : State) : afterChunk i s = { s with
    cache := (chunkPixels i s).foldl update s.cache, prev := (chunkPixels i s).getLastD s.prev,
    pixcnt := s.pixcnt + (chunkPixels i s).length, pout := s.pout ++ chunkPixels i s,
    ipos := s.ipos + i.length, diag := (beforeCommit i s).diag } := by
  unfold afterChunk
  rw [commitAll_eq]
  cases i with
  | run n => simp only [State.advance, beforeCommit, State.flagOverrun]; split <;> rfl
  | _ => rfl

/-- The state after `DEC_END`. -/
def afterEnd (s : State) : State :=
  { (if s.input.window s.ipos Config.trailerLen = Config.trailer then s else s.setEndBad).advance
      (s.input.window s.ipos Config.trailerLen).length with phase := .done }

/-- The state after `ENC_END`. -/
def afterTrailer (s : State) : State := { s.emit (encode .endMarker) with phase := .done }

/-- The state after `RESET`. -/
def afterReset (s : State) : State := { s.clobber with phase := .idle, err := .none, diag := Diag.clear }

/-- Every way a command reaches a next state. -/
inductive CommandStep (s : State) : Command → State → Prop where
  | reset : CommandStep s .reset (afterReset s)
  | encStart {w h ch cs : Nat} (admitted : s.startAdmitted = true) (wide : w < 2 ^ 32) (high : h < 2 ^ 32)
      (channels : ch = 3 ∨ ch = 4) (colorspace : cs = 0 ∨ cs = 1) :
      CommandStep s (.encStart w h ch cs)
        (s.beginEncode (BitVec.ofNat 32 w) (BitVec.ofNat 32 h) (BitVec.ofNat 8 ch) (BitVec.ofNat 8 cs))
  | encPixel {p : Pixel} (admitted : s.pixelAdmitted = true) :
      CommandStep s (.encPixel p) (s.encodePixel (forceAlpha s.ch p))
  | encEnd (admitted : s.encEndAdmitted = true) : CommandStep s .encEnd (afterTrailer s)
  | headerRaises {e : Err} (admitted : s.startAdmitted = true) (kind : e = .format ∨ e = .truncated) :
      CommandStep s .decStart (s.raiseAtStart e)
  | headerAccepted {w h : Dim} {ch cs : Byte} {after : List Byte} (admitted : s.startAdmitted = true)
      (read : decodeHeader (s.input.window 0 14) = .item (.header s.cfg.magic w h ch cs) after)
      (channels : legalChannels ch = true) (colorspace : legalColorspace cs = true) :
      CommandStep s .decStart (s.beginDecode w h ch cs)
  | chunkRaises (admitted : s.chunkAdmitted = true) : CommandStep s .decChunk (s.raise .truncated)
  | chunk {i : Instr} {after : List Byte} (admitted : s.chunkAdmitted = true)
      (read : decodeChunk (s.input.window s.ipos longestChunk) = .item i after) :
      CommandStep s .decChunk (afterChunk i s)
  | decEnd (admitted : s.decEndAdmitted = true) : CommandStep s .decEnd (afterEnd s)

theorem execEnd_of {s : State} (h : s.decEndAdmitted = true) : execEnd s = .next (afterEnd s) := require_of h _ _

theorem execHeader_next {m : Magic} {w h : Dim} {ch cs : Byte} {s t : State}
    (hx : execHeader m w h ch cs s = .next t) :
    s.startAdmitted = true ∧
      (t = s.raiseAtStart .format ∨
        m = s.cfg.magic ∧ legalChannels ch = true ∧ legalColorspace cs = true ∧ t = s.beginDecode w h ch cs) := by
  obtain ⟨ha, hx⟩ := require_next hx
  refine ⟨ha, ?_⟩
  split at hx
  · cases hx; exact .inl rfl
  split at hx
  · cases hx; exact .inl rfl
  split at hx
  · cases hx; exact .inl rfl
  · cases hx; simp_all

/-- A chunk fetch either comes up short or finds a chunk (rule R101). -/
theorem cmdDecChunk_cases {s : State} (ha : s.chunkAdmitted = true) :
    (decodeChunk (s.input.window s.ipos longestChunk) = .rejected .shortRead ∧
      cmdDecChunk s = .next (s.raise .truncated)) ∨
    ∃ i after, decodeChunk (s.input.window s.ipos longestChunk) = .item i after ∧
      cmdDecChunk s = .next (afterChunk i s) := by
  rw [cmdDecChunk, require_of ha]
  cases hd : decodeChunk (s.input.window s.ipos longestChunk) with
  | rejected e => cases e; exact .inl ⟨rfl, by simp [decode, hd]⟩
  | item i after =>
    refine .inr ⟨i, after, rfl, ?_⟩
    simp only [decode, hd]
    exact exec_chunk (decodeChunk_item hd).1 ha

/-- The inversion of `runCommand`: a next state is reached in one of the listed ways only. -/
theorem commandStep_of_next {c : Command} {s t : State} (h : runCommand c s = .next t) : CommandStep s c t := by
  cases c with
  | reset => cases h; exact .reset
  | encStart w hgt ch cs =>
    obtain ⟨ha, h⟩ := require_next h
    split at h
    · rename_i hl; cases h; exact .encStart ha hl.1 hl.2.1 hl.2.2.1 hl.2.2.2
    · cases h
  | encPixel p => obtain ⟨ha, h⟩ := require_next h; cases h; exact .encPixel ha
  | encEnd => obtain ⟨ha, h⟩ := require_next h; cases h; exact .encEnd ha
  | decStart =>
    obtain ⟨ha, h⟩ := require_next h
    split at h
    · cases h; exact .headerRaises ha (.inr rfl)
    · rename_i i after hd
      obtain ⟨m, w, hgt, ch, cs, rfl⟩ := decodeHeader_item hd
      obtain ⟨-, rfl | ⟨rfl, hc, hs, rfl⟩⟩ := execHeader_next h
      · exact .headerRaises ha (.inl rfl)
      · exact .headerAccepted ha hd hc hs
  | decChunk =>
    have ha := (require_next h).1
    obtain ⟨-, hx⟩ | ⟨i, after, hd, hx⟩ := cmdDecChunk_cases ha
    · cases hx.symm.trans h; exact .chunkRaises ha
    · cases hx.symm.trans h; exact .chunk ha hd
  | decEnd =>
    have ha := (require_next h).1
    cases (execEnd_of ha).symm.trans h
    exact .decEnd ha

/-- The inversion of `step`: nothing to do, an input presented, or a command. -/
theorem step_cases {s t : State} (h : step s = .next t) :
    (s.moves = [] ∧ t = s) ∨
    (∃ bs rest, s.moves = .present bs :: rest ∧ s.phase ≠ .dec ∧
      t = { s with moves := rest, input := Memory.ofBytes bs }) ∨
    (∃ c rest, s.moves = .issue c :: rest ∧ CommandStep { s with moves := rest } c t) := by
  unfold step runStep at h
  split at h
  · cases h; exact .inl ⟨‹_›, rfl⟩
  · rename_i m rest hm
    cases m with
    | issue c => exact .inr (.inr ⟨c, rest, hm, commandStep_of_next h⟩)
    | present bs =>
      simp only [runMove, presentInput] at h
      split at h
      · cases h
      · cases h; exact .inr (.inl ⟨bs, rest, hm, ‹_›, rfl⟩)

end Sys2Proof.Machine
end

