-- ==== Sys2Proof/Laws/Memory.lean ====
section
/-! SUPPORT. The laws of a byte stream: what a read sees after a write or an append, and that every operation keeps the
canonical form. -/

namespace Sys2Proof.Machine

/-! ## Reading -/

@[simp] theorem Memory.read_nil (a : Nat) : Memory.read [] a = none := rfl

theorem Memory.read_cons (k : Nat) (b : Byte) (m : Memory) (a : Nat) :
    Memory.read ((k, b) :: m) a = if k = a then some b else Memory.read m a := rfl

/-- A read after a write to the same offset gives the byte written, and a write leaves every other offset alone. -/
theorem Memory.read_write (m : Memory) (a : Nat) (v : Byte) (x : Nat) :
    Memory.read (Memory.write m a v) x = if a = x then some v else Memory.read m x := by
  induction m with
  | nil => rfl
  | cons c m ih =>
    obtain ⟨k, b⟩ := c
    simp only [Memory.write]
    split
    · rfl
    · split
      · subst k; simp only [Memory.read_cons]; split <;> rfl
      · simp only [Memory.read_cons, ih]; split <;> split <;> first | rfl | omega

theorem Memory.read_append_cells (m : Memory) (a : Nat) (bs : List Byte) (x : Nat) :
    Memory.read (m ++ Memory.cells a bs) x =
      match Memory.read m x with
      | some b => some b
      | none => Memory.read (Memory.cells a bs) x := by
  induction m with
  | nil => rfl
  | cons c m ih =>
    obtain ⟨k, b⟩ := c
    simp only [List.cons_append, Memory.read_cons, ih]
    by_cases h : k = x <;> simp [h]

theorem Memory.read_cells (a : Nat) (bs : List Byte) (x : Nat) :
    Memory.read (Memory.cells a bs) x = if a ≤ x then bs[x - a]? else none := by
  induction bs generalizing a with
  | nil => simp [Memory.cells]
  | cons b bs ih =>
    simp only [Memory.cells, Memory.read_cons, ih]
    by_cases h : a = x
    · simp [h]
    · by_cases h' : a ≤ x
      · have : x - a = (x - (a + 1)) + 1 := by omega
        rw [if_neg h, if_pos (by omega), if_pos h', this, List.getElem?_cons_succ]
      · rw [if_neg h, if_neg (by omega), if_neg h']

/-! ## The offsets of a stream -/

theorem Memory.cells_fst (a : Nat) (bs : List Byte) :
    (Memory.cells a bs).map Prod.fst = List.range' a bs.length := by
  induction bs generalizing a with
  | nil => rfl
  | cons b bs ih => simp [Memory.cells, ih, List.range'_succ]

@[simp] theorem Memory.cells_length (a : Nat) (bs : List Byte) : (Memory.cells a bs).length = bs.length := by
  simpa using congrArg List.length (Memory.cells_fst a bs)

@[simp] theorem Memory.bytes_cells (a : Nat) (bs : List Byte) : Memory.bytes (Memory.cells a bs) = bs := by
  induction bs generalizing a with
  | nil => rfl
  | cons b bs ih => simpa [Memory.cells, Memory.bytes] using ih (a + 1)

@[simp] theorem Memory.bytes_append (m : Memory) (bs : List Byte) :
    Memory.bytes (Memory.append m bs) = Memory.bytes m ++ bs := by
  have h := Memory.bytes_cells (Memory.len m) bs
  simp only [Memory.bytes, Memory.append, List.map_append] at *
  rw [h]

@[simp] theorem Memory.bytes_ofBytes (bs : List Byte) : Memory.bytes (Memory.ofBytes bs) = bs :=
  Memory.bytes_cells 0 bs

theorem Memory.rising_cons (a : Nat) (l : List Nat) :
    Memory.rising (a :: l) = true ↔ (∀ x ∈ l, a < x) ∧ Memory.rising l = true := by
  induction l generalizing a with
  | nil => simp [Memory.rising]
  | cons b l ih =>
    simp only [Memory.rising, Bool.and_eq_true, decide_eq_true_eq]
    constructor
    · rintro ⟨h, hb⟩
      refine ⟨fun x hx => ?_, hb⟩
      rcases List.mem_cons.mp hx with rfl | hx
      · exact h
      · exact h.trans (((ih b).mp hb).1 x hx)
    · rintro ⟨h, hb⟩
      exact ⟨h b (by simp), hb⟩

theorem Memory.wf_cons (c : Host.Cell) (m : Memory) :
    Memory.wf (c :: m) = true ↔ (∀ x ∈ m.map Prod.fst, c.1 < x) ∧ Memory.wf m = true := by
  simpa [Memory.wf] using Memory.rising_cons c.1 (m.map Prod.fst)

theorem Memory.len_append_singleton (m : Memory) (c : Host.Cell) : Memory.len (m ++ [c]) = c.1 + 1 := by
  induction m with
  | nil => rfl
  | cons d m ih =>
    cases m with
    | nil => simp [Memory.len]
    | cons e m => simpa [Memory.len] using ih

theorem Memory.dense_iff (m : Memory) : Memory.dense m = true ↔ m.map Prod.fst = List.range m.length := by
  simp [Memory.dense]

/-- In a stream without holes `LEN` is the number of its bytes. -/
theorem Memory.len_eq_length {m : Memory} (h : Memory.dense m = true) : Memory.len m = m.length := by
  rcases List.eq_nil_or_concat m with rfl | ⟨l, c, rfl⟩
  · rfl
  · rw [List.concat_eq_append] at *
    rw [Memory.dense_iff] at h
    have : (l ++ [c]).map Prod.fst = List.range l.length ++ [l.length] := by
      rw [h, List.length_append, List.length_singleton, List.range_succ]
    have hc : c.1 = l.length := by
      have := congrArg List.getLast? this
      simpa using this
    rw [Memory.len_append_singleton]; simp [hc]

theorem Memory.dense_cells (bs : List Byte) : Memory.dense (Memory.cells 0 bs) = true := by
  rw [Memory.dense_iff, Memory.cells_fst, Memory.cells_length, List.range_eq_range']

theorem Memory.wf_of_dense {m : Memory} (h : Memory.dense m = true) : Memory.wf m = true := by
  rw [Memory.dense_iff] at h
  rw [Memory.wf, h]
  have : ∀ n a, Memory.rising (List.range' a n) = true := by
    intro n
    induction n with
    | zero => intro a; rfl
    | succ n ih =>
      intro a
      rw [List.range'_succ, Memory.rising_cons]
      refine ⟨fun x hx => ?_, ih _⟩
      have := List.mem_range'.mp hx
      omega
  rw [List.range_eq_range']
  exact this _ _

theorem Memory.cells_append (k : Nat) (a b : List Byte) :
    Memory.cells k (a ++ b) = Memory.cells k a ++ Memory.cells (k + a.length) b := by
  induction a generalizing k with
  | nil => rfl
  | cons x xs ih =>
    have : k + (x :: xs).length = k + 1 + xs.length := by simp; omega
    rw [this]
    simp [Memory.cells, ih]

theorem Memory.len_append_cells (m : Memory) (a : List Byte) :
    Memory.len (m ++ Memory.cells (Memory.len m) a) = Memory.len m + a.length := by
  rcases List.eq_nil_or_concat a with rfl | ⟨a, v, rfl⟩
  · simp [Memory.cells]
  · rw [List.concat_eq_append, Memory.cells_append, ← List.append_assoc]
    simp only [Memory.cells]
    rw [Memory.len_append_singleton]
    simp; omega

@[simp] theorem Memory.len_append (m : Memory) (a : List Byte) :
    Memory.len (Memory.append m a) = Memory.len m + a.length := Memory.len_append_cells m a

@[simp] theorem Memory.append_nil (m : Memory) : Memory.append m [] = m := by simp [Memory.append, Memory.cells]

/-- Appending twice is appending once. -/
@[simp] theorem Memory.append_append (m : Memory) (a b : List Byte) :
    Memory.append (Memory.append m a) b = Memory.append m (a ++ b) := by
  have h := Memory.len_append m a
  unfold Memory.append at h ⊢
  rw [h, Memory.cells_append, List.append_assoc]

/-! ## Every operation keeps the canonical form -/

theorem Memory.mem_write_fst (m : Memory) (a : Nat) (v : Byte) :
    ∀ x ∈ (Memory.write m a v).map Prod.fst, x = a ∨ x ∈ m.map Prod.fst := by
  induction m with
  | nil => intro x hx; simpa [Memory.write] using hx
  | cons c m ih =>
    obtain ⟨k, b⟩ := c
    intro x hx
    simp only [Memory.write] at hx
    split at hx
    · simpa using hx
    · split at hx
      · rename_i h; subst h; simp at hx ⊢; tauto
      · simp only [List.map_cons, List.mem_cons] at hx ⊢
        rcases hx with h | h
        · exact .inr (.inl h)
        · rcases ih x h with h | h
          · exact .inl h
          · exact .inr (.inr h)

theorem Memory.write_wf (m : Memory) (a : Nat) (v : Byte) (h : Memory.wf m = true) :
    Memory.wf (Memory.write m a v) = true := by
  induction m with
  | nil => rfl
  | cons c m ih =>
    obtain ⟨k, b⟩ := c
    have hc := (Memory.wf_cons _ _).mp h
    simp only [Memory.write]
    split
    · rename_i hk
      refine (Memory.wf_cons _ _).mpr ⟨fun x hx => ?_, h⟩
      simp only [List.map_cons, List.mem_cons] at hx
      rcases hx with rfl | hx
      · exact hk
      · exact hk.trans (hc.1 x hx)
    · split
      · rename_i hk; subst hk; exact (Memory.wf_cons _ _).mpr hc
      · refine (Memory.wf_cons _ _).mpr ⟨fun x hx => ?_, ih hc.2⟩
        rcases Memory.mem_write_fst m a v x hx with rfl | hx
        · show k < x; omega
        · exact hc.1 x hx

theorem Memory.writeBytes_wf (m : Memory) (a : Nat) (vs : List Byte) (h : Memory.wf m = true) :
    Memory.wf (Memory.writeBytes m a vs) = true := by
  induction vs generalizing m a with
  | nil => exact h
  | cons v vs ih => exact ih _ _ (Memory.write_wf m a v h)

theorem Memory.lt_len {m : Memory} (h : Memory.wf m = true) : ∀ x ∈ m.map Prod.fst, x < Memory.len m := by
  induction m with
  | nil => simp
  | cons c m ih =>
    have hc := (Memory.wf_cons _ _).mp h
    cases m with
    | nil => simp [Memory.len]
    | cons d m =>
      have ih := ih hc.2
      intro x hx
      simp only [Memory.len]
      rcases List.mem_cons.mp hx with rfl | hx
      · exact (hc.1 d.1 (by simp)).trans (ih d.1 (by simp))
      · exact ih x hx

theorem Memory.append_wf (m : Memory) (bs : List Byte) (h : Memory.wf m = true) :
    Memory.wf (Memory.append m bs) = true := by
  have key : ∀ (l : Memory), Memory.wf l = true → (∀ x ∈ l.map Prod.fst, x < Memory.len m) →
      Memory.wf (l ++ Memory.cells (Memory.len m) bs) = true := by
    intro l
    induction l with
    | nil =>
      intro _ _
      have : ∀ n a, Memory.rising (List.range' a n) = true := by
        intro n
        induction n with
        | zero => intro a; rfl
        | succ n ih =>
          intro a
          rw [List.range'_succ, Memory.rising_cons]
          exact ⟨fun x hx => by have := List.mem_range'.mp hx; omega, ih _⟩
      simpa [Memory.wf, Memory.cells_fst] using this bs.length (Memory.len m)
    | cons c l ih =>
      intro hl hx
      have hc := (Memory.wf_cons _ _).mp hl
      refine (Memory.wf_cons _ _).mpr ⟨fun x hm => ?_, ih hc.2 fun x h => hx x (List.mem_cons_of_mem _ h)⟩
      have hm : x ∈ (l ++ Memory.cells (Memory.len m) bs).map Prod.fst := hm
      rw [List.map_append, List.mem_append, Memory.cells_fst] at hm
      rcases hm with hm | hm
      · exact hc.1 x hm
      · have := List.mem_range'.mp hm
        have := hx c.1 (by simp)
        omega
  exact key m h (Memory.lt_len h)

/-- Appending leaves no hole. -/
theorem Memory.append_dense (m : Memory) (bs : List Byte) (h : Memory.dense m = true) :
    Memory.dense (Memory.append m bs) = true := by
  have hl := Memory.len_eq_length h
  rw [Memory.dense_iff] at h ⊢
  rw [Memory.append, List.map_append, h, Memory.cells_fst, hl, List.length_append, Memory.cells_length,
    List.range_add, List.range'_eq_map_range]

theorem Memory.ofBytes_wf (bs : List Byte) : Memory.wf (Memory.ofBytes bs) = true :=
  Memory.wf_of_dense (Memory.dense_cells bs)

/-! ## Appending, as the reader of a stream sees it -/

/-- Appending changes no byte but those stored, which stand from the old `LEN` on (rule R44). -/
theorem Memory.read_append_outside (m : Memory) (bs : List Byte) (x : Nat)
    (h : x < Memory.len m ∨ Memory.len m + bs.length ≤ x) :
    Memory.read (Memory.append m bs) x = Memory.read m x := by
  rw [Memory.append, Memory.read_append_cells, Memory.read_cells]
  cases hm : Memory.read m x with
  | some b => rfl
  | none =>
    show (if _ then _ else _) = none
    split
    · rw [List.getElem?_eq_none]; omega
    · rfl

/-- A stream without holes reads as the list of its bytes. -/
theorem Memory.read_dense {m : Memory} (h : Memory.dense m = true) (x : Nat) :
    Memory.read m x = (Memory.bytes m)[x]? := by
  have key : ∀ (l : Memory) a, l.map Prod.fst = List.range' a l.length → l = Memory.cells a (Memory.bytes l) := by
    intro l
    induction l with
    | nil => intro _ _; rfl
    | cons c l ih =>
      intro a hl
      simp only [List.map_cons, List.length_cons, List.range'_succ, List.cons.injEq] at hl
      have := ih (a + 1) hl.2
      simp only [Memory.bytes, List.map_cons, Memory.cells] at this ⊢
      rw [← this]; exact congrArg (· :: l) (Prod.ext hl.1 rfl)
  rw [Memory.dense_iff, List.range_eq_range'] at h
  rw [key m 0 h, Memory.read_cells, Memory.bytes_cells]
  simp

/-- The bytes that can be read from an offset on, in a stream without holes. -/
theorem Memory.window_dense {m : Memory} (h : Memory.dense m = true) (a n : Nat) :
    Memory.window m a n = ((Memory.bytes m).drop a).take n := by
  induction n generalizing a with
  | zero => simp [Memory.window]
  | succ n ih =>
    rw [Memory.window, Memory.read_dense h, ih]
    cases hx : (Memory.bytes m)[a]? with
    | none =>
      have : (Memory.bytes m).length ≤ a := List.getElem?_eq_none_iff.mp hx
      simp [List.drop_eq_nil_of_le this]
    | some b =>
      obtain ⟨hlt, hb⟩ := List.getElem?_eq_some_iff.mp hx
      rw [List.drop_eq_getElem_cons hlt, List.take_succ_cons, hb]

/-! ## A presented input -/

theorem Memory.ofBytes_dense (bs : List Byte) : Memory.dense (Memory.ofBytes bs) = true := Memory.dense_cells bs

/-- A presented input reads as the bytes presented (rule R41). -/
@[simp] theorem Memory.read_ofBytes (bs : List Byte) (a : Nat) : Memory.read (Memory.ofBytes bs) a = bs[a]? := by
  simp [Memory.ofBytes, Memory.read_cells]

@[simp] theorem Memory.len_ofBytes (bs : List Byte) : Memory.len (Memory.ofBytes bs) = bs.length := by
  rw [Memory.len_eq_length (Memory.ofBytes_dense bs)]
  simp [Memory.ofBytes]

@[simp] theorem Memory.bytes_length (m : Memory) : (Memory.bytes m).length = m.length := by
  simp [Memory.bytes]

theorem Memory.window_length (m : Memory) (a n : Nat) : (Memory.window m a n).length ≤ n := by
  induction n generalizing a with
  | zero => simp [Memory.window]
  | succ n ih =>
    rw [Memory.window]
    split
    · simp
    · simpa using ih (a + 1)

/-- What `StreamRead` answers, in a stream without holes (rule R43). -/
theorem Memory.streamRead_dense {m : Memory} (h : Memory.dense m = true) (pos n : Nat) :
    Memory.streamRead m pos n =
      if pos + n ≤ Memory.len m then some (((Memory.bytes m).drop pos).take n) else none := by
  rw [Memory.streamRead, Memory.window_dense h, Memory.len_eq_length h]
  by_cases hn : pos + n ≤ m.length
  · have hl : (((Memory.bytes m).drop pos).take n).length = n := by
      simp only [List.length_take, List.length_drop, Memory.bytes_length]
      omega
    rw [if_pos ⟨hn, hl⟩, if_pos hn]
  · rw [if_neg fun c => hn c.1, if_neg hn]

/-- `StreamRead` is defined exactly where all its bytes exist (rule R43). -/
theorem Memory.streamRead_isSome {m : Memory} (h : Memory.dense m = true) (pos n : Nat) :
    (Memory.streamRead m pos n).isSome = true ↔ pos + n ≤ Memory.len m := by
  rw [Memory.streamRead_dense h]
  split <;> simp_all

end Sys2Proof.Machine
end

