-- ==== Sys2Proof/Laws/Encoder.lean ====
section
/-! SUPPORT. What the encoder does with one pixel, in one equation. -/

namespace Sys2Proof.Machine

/-- `Emit` twice is `Emit` once. -/
theorem emit_emit (s : State) (a b : List Byte) : (s.emit a).emit b = s.emit (a ++ b) := by
  simp [State.emit, Nat.add_assoc]

@[simp] theorem emit_nil (s : State) : s.emit [] = s := by simp [State.emit]

/-- The bytes one pixel makes the encoder emit (rules R122, R123, R134). -/
def pixelBytes (p : Pixel) (s : State) : List Byte :=
  if p = s.prev then (if s.run + 1 = 62 ∨ s.pixcnt + 1 = s.npix then encode (.run (s.run + 1)) else [])
  else (if 0 < s.run then encode (.run s.run) else []) ++ encode (s.chooseChunk p)

/-- `RUN` after one pixel. -/
def runAfter (p : Pixel) (s : State) : Nat :=
  if p = s.prev then (if s.run + 1 = 62 ∨ s.pixcnt + 1 = s.npix then 0 else s.run + 1) else 0

/-- One pixel of the encoder: emit, count or clear the run, commit (rule R133). -/
theorem encodePixel_eq (p : Pixel) (s : State) :
    s.encodePixel p = { s with
      cache := update s.cache p, prev := p, run := runAfter p s, pixcnt := s.pixcnt + 1,
      out := s.out.append (pixelBytes p s), opos := s.opos + (pixelBytes p s).length } := by
  unfold State.encodePixel runAfter pixelBytes
  by_cases hp : p = s.prev
  · simp only [if_pos hp, State.countRun]
    by_cases hr : s.run + 1 = Config.maxRun ∨ s.pixcnt + 1 = s.npix
    · have hr' : s.run + 1 = 62 ∨ s.pixcnt + 1 = s.npix := hr
      rw [if_pos hr, if_pos hr', if_pos hr']
      rfl
    · have hr' : ¬ (s.run + 1 = 62 ∨ s.pixcnt + 1 = s.npix) := hr
      rw [if_neg hr, if_neg hr', if_neg hr']
      simp [State.consume]
  · simp only [if_neg hp, State.emitChunk]
    by_cases hr : 0 < s.run
    · simp only [if_pos hr]
      have : s.flushRun.chooseChunk p = s.chooseChunk p := rfl
      rw [this]
      simp [State.consume, State.flushRun, State.emit, Nat.add_assoc]
    · have : s.run = 0 := by omega
      simp [State.consume, State.emit, this]

end Sys2Proof.Machine
end

