-- ==== Sys2Proof/Laws/Pass.lean ====
section
/-! SUPPORT. Sequences of commands and rounds of the decode loop, put together and taken apart. -/

namespace Sys2Proof.Machine

@[simp] theorem andThen_next (s : State) (f : State → Result) : andThen (.next s) f = f s := rfl

/-- A sequence reaches a next state only through one after its first part. -/
theorem andThen_eq_next {r : Result} {f : State → Result} {t : State} (h : andThen r f = .next t) :
    ∃ s, r = .next s ∧ f s = .next t := by
  cases r with
  | next s => exact ⟨s, rfl, h⟩
  | fault e => cases h
  | refused e => cases h

theorem andThen_assoc (r : Result) (f g : State → Result) :
    andThen (andThen r f) g = andThen r fun s => andThen (f s) g := by
  cases r <;> rfl

/-- Commands one after the other. -/
theorem runCommands_append (cs ds : List Command) (s : State) :
    runCommands (cs ++ ds) s = andThen (runCommands cs s) (runCommands ds) := by
  induction cs generalizing s with
  | nil => rfl
  | cons c cs ih =>
    simp only [List.cons_append, runCommands, andThen_assoc]
    congr 1
    funext t
    exact ih t

@[simp] theorem runCommands_singleton (c : Command) (s : State) : runCommands [c] s = runCommand c s := by
  simp only [runCommands]
  cases runCommand c s <;> rfl

/-- The commands up to one pixel more. -/
theorem Image.commandsTo_succ (img : Image) {k : Nat} (h : k < img.pix.length) :
    img.commandsTo (k + 1) = img.commandsTo k ++ [.encPixel img.pix[k]] := by
  rw [Image.commandsTo, List.take_succ_eq_append_getElem h, List.map_append]
  rfl

/-- The pixels up to one more. -/
theorem Image.pixelsTo_succ (img : Image) {k : Nat} (h : k < img.pix.length) :
    img.pixelsTo (k + 1) = img.pixelsTo k ++ [forceAlpha img.ch img.pix[k]] := by
  rw [Image.pixelsTo, List.take_succ_eq_append_getElem h, List.map_append]
  rfl

theorem Image.pixelsTo_length (img : Image) {k : Nat} (h : k ≤ img.pix.length) : (img.pixelsTo k).length = k := by
  simp [Image.pixelsTo, h]

/-- Rounds of the decode loop, some and then more. -/
theorem decodeLoop_add (j k : Nat) (s : State) : decodeLoop (j + k) s = andThen (decodeLoop j s) (decodeLoop k) := by
  induction j generalizing s with
  | zero => simp [decodeLoop]
  | succ j ih =>
    have hz : ∀ n, ¬ s.chunkAdmitted = true → decodeLoop n s = .next s := by
      intro n h; cases n <;> simp [decodeLoop, h]
    rw [Nat.succ_add]
    by_cases h : s.chunkAdmitted = true
    · simp only [decodeLoop, if_pos h, andThen_assoc]
      congr 1
      funext t
      exact ih t
    · rw [hz _ h, hz _ h, andThen_next, hz _ h]

/-- Where no chunk is admitted the loop is over. -/
theorem decodeLoop_of_not {s : State} (h : ¬ s.chunkAdmitted = true) (n : Nat) : decodeLoop n s = .next s := by
  cases n <;> simp [decodeLoop, h]

end Sys2Proof.Machine
end

