-- ==== Sys2Proof/Laws/PerInstr.lean ====
section
/-! SUPPORT. Statements for every item, one lemma per constructor. -/

namespace Sys2Proof.Laws

/-- The encoding of an item has the item's length (rules R61, R62, R66). -/
def EncodedLength.Statement (i : Instr) : Prop := (encode i).length = i.length

theorem EncodedLength.rgb (r g b : Byte) : EncodedLength.Statement (.rgb r g b) := rfl

theorem EncodedLength.rgba (r g b a : Byte) : EncodedLength.Statement (.rgba r g b a) := rfl

theorem EncodedLength.index (i : Fin 64) : EncodedLength.Statement (.index i) := rfl

theorem EncodedLength.diff (dr dg db : Int) : EncodedLength.Statement (.diff dr dg db) := rfl

theorem EncodedLength.luma (dg drg dbg : Int) : EncodedLength.Statement (.luma dg drg dbg) := rfl

theorem EncodedLength.run (n : Nat) : EncodedLength.Statement (.run n) := rfl

theorem EncodedLength.header (magic : Magic) (w h : Dim) (ch cs : Byte) :
    EncodedLength.Statement (.header magic w h ch cs) := rfl

theorem EncodedLength.endMarker : EncodedLength.Statement .endMarker := rfl

/-- The encoding of an item has the item's length. -/
theorem encode_length (i : Instr) : (encode i).length = i.length := by
  cases i <;> rfl

end Sys2Proof.Laws
end

