-- ==== Sys2Proof/Laws/System.lean ====
section
/-! SUPPORT. What a move of one instance does to a system. -/

namespace Sys2Proof.Machine

@[simp] theorem System.actAt_nil (f : State → Host.Outcome State Fault Refusal) (k : Nat) :
    System.actAt f k [] = .next [] := by
  cases k <;> rfl

/-- Acting in an instance that is not there changes nothing. -/
theorem System.actAt_of_none {f : State → Host.Outcome State Fault Refusal} {k : Nat} {sys : System}
    (h : sys[k]? = none) : System.actAt f k sys = .next sys := by
  induction sys generalizing k with
  | nil => simp
  | cons s rest ih =>
    cases k with
    | zero => simp at h
    | succ k => simp only [System.actAt, ih (k := k) (by simpa using h)]

/-- Acting in an instance answers as it does there, and replaces that instance alone. -/
theorem System.actAt_of_some {f : State → Host.Outcome State Fault Refusal} {k : Nat} {sys : System} {s : State}
    (h : sys[k]? = some s) :
    System.actAt f k sys =
      match f s with
      | .next t => .next (sys.set k t)
      | .fault e => .fault e
      | .refused e => .refused e := by
  induction sys generalizing k with
  | nil => simp at h
  | cons u rest ih =>
    cases k with
    | zero =>
      simp only [List.getElem?_cons_zero, Option.some.injEq] at h
      subst h
      simp only [System.actAt]
      cases f u <;> rfl
    | succ k =>
      simp only [List.getElem?_cons_succ] at h
      simp only [System.actAt, ih h]
      cases f s <;> rfl

/-- If acting in an instance answers a next system, every other instance is as before. -/
theorem System.actAt_other {f : State → Host.Outcome State Fault Refusal} {k j : Nat} {sys sys' : System}
    (h : System.actAt f k sys = .next sys') (hj : j ≠ k) : sys'[j]? = sys[j]? := by
  cases hk : sys[k]? with
  | none => rw [System.actAt_of_none hk] at h; cases h; rfl
  | some s =>
    rw [System.actAt_of_some hk] at h
    split at h <;> cases h
    rw [List.getElem?_set_ne (Ne.symm hj)]

theorem System.actAt_length {f : State → Host.Outcome State Fault Refusal} {k : Nat} {sys sys' : System}
    (h : System.actAt f k sys = .next sys') : sys'.length = sys.length := by
  cases hk : sys[k]? with
  | none => rw [System.actAt_of_none hk] at h; cases h; rfl
  | some s =>
    rw [System.actAt_of_some hk] at h
    split at h <;> cases h
    exact List.length_set

theorem System.interleave_cons (k : Nat) (ks : List Nat) (sys : System) :
    System.interleave (k :: ks) sys =
      match System.stepAt k sys with
      | .next sys => System.interleave ks sys
      | .fault e => .fault e
      | .refused e => .refused e := rfl

end Sys2Proof.Machine
end

