-- ==== Sys2Proof/Tests/Slice0.lean ====
section
/-! SUPPORT. Tests with results from spec/95_test_vectors.md or worked by hand from the rules, and a witness for the
hypotheses of every obligation. -/

namespace Sys2Proof.Tests

open Sys2Proof.Machine

/-! ## Helpers -/

/-- The next state of a result, or the state after reset where there is none. -/
def nextOf (r : Result) : State :=
  match r with
  | .next s => s
  | .fault _ => State.reset
  | .refused _ => State.reset

/-- The result is a next state. -/
def isNext (r : Result) : Bool :=
  match r with
  | .next _ => true
  | .fault _ => false
  | .refused _ => false

theorem eq_next {r : Result} (h : isNext r = true) : r = .next (nextOf r) := by
  cases r <;> first | rfl | cases h

/-- A header with the example magic. -/
def headerBytes (w h : Dim) (ch cs : Byte) : List Byte := encode (.header Config.exampleMagic w h ch cs)

/-- A decode pass of a row of `n` four-channel pixels that has just started on these chunk bytes. -/
def decoding (n : Nat) (body : List Byte) : State :=
  { State.reset with
    phase := .dec, w := BitVec.ofNat 32 n, h := 1, ch := 4, ipos := 14,
    input := Memory.ofBytes (headerBytes (BitVec.ofNat 32 n) 1 4 0 ++ body) }

/-- An encode pass of a row of `n` pixels that has just started. -/
def encoding (n : Nat) (ch : Byte) : State :=
  { State.reset with
    phase := .enc, w := BitVec.ofNat 32 n, h := 1, ch := ch, opos := 14,
    out := Memory.ofBytes (headerBytes (BitVec.ofNat 32 n) 1 ch 0) }

/-- The bytes the encoder emits for one pixel. -/
def emitted (p : Pixel) (s : State) : List Byte := (nextOf (runCommand (.encPixel p) s)).out.bytes.drop s.out.bytes.length

/-- A grey pixel. -/
def grey (v : Byte) : Pixel := ⟨v, v, v, 255⟩

/-- The decode pass of vector V-D23 with one more pixel to come: RGBA 1, 2, 3, 4 has been executed, INDEX 14 is next. -/
def midDecode : State :=
  { decoding 2 [0xFF, 1, 2, 3, 4, 0x0E] with
    cache := update freshCache ⟨1, 2, 3, 4⟩, prev := ⟨1, 2, 3, 4⟩, pixcnt := 1, ipos := 19, pout := [⟨1, 2, 3, 4⟩] }

/-- A decode pass whose two pixels are there, with these bytes after the last chunk. -/
def atEnd (tail : List Byte) : State := { decoding 2 (0xC1 :: tail) with pixcnt := 2, ipos := 15 }

/-! ## Well-formedness: an ill-formed term for each check -/

theorem test_wf_diff_red_low : (Instr.diff (-3) 0 0).wf = false := by decide
theorem test_wf_diff_green_high : (Instr.diff 0 2 0).wf = false := by decide
theorem test_wf_diff_blue_high : (Instr.diff 0 0 2).wf = false := by decide
theorem test_wf_luma_green_low : (Instr.luma (-33) 0 0).wf = false := by decide
theorem test_wf_luma_red_high : (Instr.luma 0 8 0).wf = false := by decide
theorem test_wf_luma_blue_low : (Instr.luma 0 0 (-9)).wf = false := by decide
theorem test_wf_run_zero : (Instr.run 0).wf = false := by decide
theorem test_wf_run_63 : (Instr.run 63).wf = false := by decide
theorem test_wf_header_channels : (Instr.header Config.exampleMagic 1 1 2 0).wf = false := by decide
theorem test_wf_header_colorspace : (Instr.header Config.exampleMagic 1 1 3 2).wf = false := by decide

/-! ## Decoding: words written out from rules R61, R62, R67 to R73 -/

/-- R72: `11111110 rrrrrrrr gggggggg bbbbbbbb`, the first byte lowest. -/
theorem test_decode_rgb : decodeTableWord 32 0b00011110_00010100_00001010_11111110 = some (.rgb 10 20 30) := by decide

/-- R73: `11111111 rrrrrrrr gggggggg bbbbbbbb aaaaaaaa`. -/
theorem test_decode_rgba :
    decodeTableWord 40 0b10000000_00011110_00010100_00001010_11111111 = some (.rgba 10 20 30 128) := by decide

/-- R67: `00iiiiii`. -/
theorem test_decode_index : decodeTableWord 8 0b00_110101 = some (.index 53) := by decide

/-- R68: `01rrggbb`, each field biased +2; vector V-D12. -/
theorem test_decode_diff : decodeTableWord 8 0b01_11_00_11 = some (.diff 1 (-2) 1) := by decide

/-- R69: `10gggggg rrrrbbbb`, biased +32, +8, +8; vector V-D16. -/
theorem test_decode_luma : decodeTableWord 16 0b10011100_10100101 = some (.luma 5 1 4) := by decide

/-- R71: `11nnnnnn`, the payload is one less than the run; `FD` is the longest, vector V-D21. -/
theorem test_decode_run : decodeTableWord 8 0b11_111101 = some (.run 62) := by decide

/-- R61: magic, `be32(w)`, `be32(h)`, `ch`, `cs`; vector V-F2. -/
theorem test_decode_header :
    decodeTableWord 112 0x0103D0C0B0A00403020166696F71 =
      some (.header ⟨0x71, 0x6F, 0x69, 0x66⟩ 0x01020304 0xA0B0C0D0 3 1) := by decide

/-- R62: seven zero bytes, then 1. -/
theorem test_decode_end : decodeTableWord 64 0x0100000000000000 = some .endMarker := by decide

/-- R74, R182: a chunk that is cut short is rejected by name. -/
theorem test_decode_short : decodeChunk [0xFF, 1, 2, 3] = .rejected .shortRead := by decide

/-! ## One instruction each -/

/-- Vector V-D22. -/
theorem test_rgb_alpha_from_prev : (nextOf (exec (.rgb 1 2 3) (decoding 1 []))).pout = [⟨1, 2, 3, 255⟩] := by decide

/-- Vector V-D24: the alpha an RGBA has set stays. -/
theorem test_rgb_keeps_alpha :
    (nextOf (exec (.rgb 9 8 7) { decoding 2 [] with prev := ⟨1, 2, 3, 4⟩ })).prev = ⟨9, 8, 7, 4⟩ := by decide

/-- Vector V-D23. -/
theorem test_rgba_slot : lookup (nextOf (exec (.rgba 1 2 3 4) (decoding 1 []))).cache 14 = ⟨1, 2, 3, 4⟩ := by decide

/-- Vector V-D2: the update goes to the slot of the pixel, not to the slot read. -/
theorem test_index_zero_pixel : (nextOf (exec (.index 5) (decoding 1 []))).prev = ⟨0, 0, 0, 0⟩ := by decide

/-- Vector V-D23 and one INDEX more. -/
theorem test_index_hit : (nextOf (exec (.index 14) midDecode)).pout = [⟨1, 2, 3, 4⟩, ⟨1, 2, 3, 4⟩] := by decide

/-- Vector V-D9: the red channel wraps below 0. -/
theorem test_diff_wraps : (nextOf (exec (.diff (-1) 0 0) (decoding 1 []))).pout = [⟨255, 0, 0, 255⟩] := by decide

/-- Vector V-D12: each delta to its own channel. -/
theorem test_diff_channels :
    (nextOf (exec (.diff 1 (-2) 1) { decoding 2 [] with prev := grey 100 })).prev = ⟨101, 98, 101, 255⟩ := by decide

/-- Vector V-D16. -/
theorem test_luma_channels :
    (nextOf (exec (.luma 5 1 4) { decoding 2 [] with prev := grey 100 })).prev = ⟨106, 105, 109, 255⟩ := by decide

/-- Vector V-D14. -/
theorem test_luma_wraps : (nextOf (exec (.luma (-32) (-8) (-8)) (decoding 1 []))).prev = ⟨216, 224, 216, 255⟩ := by decide

/-- Vector V-D19. -/
theorem test_run_three : (nextOf (exec (.run 3) (decoding 3 []))).pixcnt = 3 := by decide

/-- Vector V-D21: no more pixels than remain, and the flag. -/
theorem test_run_overrun :
    (nextOf (exec (.run 62) (decoding 3 []))).pout.length = 3 ∧
    (nextOf (exec (.run 62) (decoding 3 []))).diag = ⟨false, true⟩ := by decide

/-- Rule R158: the pass starts with the header's fields. -/
theorem test_header_starts :
    (nextOf (exec (.header Config.exampleMagic 3 2 4 1) State.reset)).npix = 6 ∧
    (nextOf (exec (.header Config.exampleMagic 3 2 4 1) State.reset)).ipos = 14 := by decide

/-- Vector V-X5: `CH = 5`. -/
theorem test_header_bad_channels :
    (nextOf (exec (.header Config.exampleMagic 1 1 5 0) State.reset)).err = .format := by decide

/-- Rule R161: the trailer is there. -/
theorem test_end_good : (nextOf (exec .endMarker (atEnd [0, 0, 0, 0, 0, 0, 0, 1]))).diag = ⟨false, false⟩ := by decide

/-- Vector V-F10: six bytes where eight should be; they are consumed. -/
theorem test_end_short :
    (nextOf (exec .endMarker (atEnd [0, 0, 0, 0, 0]))).diag = ⟨true, false⟩ ∧
    (nextOf (exec .endMarker (atEnd [0, 0, 0, 0, 0]))).ipos = 20 := by decide

/-! ## The encoder's choices -/

/-- Vector V-E2, second pixel. -/
theorem test_enc_diff : emitted (grey 101) { encoding 2 4 with prev := grey 100 } = [0x7F] := by decide

/-- Vector V-E15, second pixel. -/
theorem test_enc_luma : emitted ⟨106, 105, 109, 255⟩ { encoding 2 4 with prev := grey 100 } = [0xA5, 0x9C] := by decide

/-- Vector V-E13: no wrap of the deltas; with `ENC_DELTA_WRAP` there is. -/
theorem test_enc_no_wrap : emitted (grey 255) (encoding 1 4) = [0xFE, 0xFF, 0xFF, 0xFF] := by decide
theorem test_enc_wrap : emitted (grey 255) { encoding 1 4 with cfg := ⟨Config.exampleMagic, true⟩ } = [0x55] := by decide

/-- Vector V-E11: the zero pixel hits the fresh cache. -/
theorem test_enc_index : emitted ⟨0, 0, 0, 0⟩ (encoding 1 4) = [0x00] := by decide

/-- Vector V-E20, second pixel: an alpha change makes an RGBA. -/
theorem test_enc_rgba :
    emitted ⟨10, 20, 30, 128⟩ { encoding 2 4 with prev := ⟨10, 20, 30, 255⟩ } = [0xFF, 10, 20, 30, 0x80] := by decide

/-- Vector V-E5: the flush at 62 and at the last pixel is one chunk. -/
theorem test_enc_run : emitted (grey 0) { encoding 62 4 with run := 61, pixcnt := 61 } = [0xFD] := by decide

/-- Vector V-E21, third pixel: the pending run is written before the DIFF. -/
theorem test_enc_pending_run :
    emitted ⟨1, 0, 0, 255⟩ { encoding 5 4 with run := 2, pixcnt := 2 } = [0xC1, 0x7A] := by decide

/-- Vector V-E14: alpha is forced to 255 in a 3-channel pass. -/
theorem test_enc_forced_alpha : emitted ⟨1, 2, 3, 77⟩ (encoding 2 3) = [0xA2, 0x79] := by decide

/-! ## Codes and what the host can read -/

theorem test_codes : Phase.failed.code = 4 ∧ Err.truncated.code = 2 ∧ (Diag.mk false true).code = 2 := by decide
theorem test_host_view : State.reset.hostView.phase = .idle := by decide

/-! ## Step -/

theorem test_step_runs_fetched_word :
    (nextOf (step (State.reset.withFetchWord 8 0b01_01_10_10))).pout = [⟨255, 0, 0, 255⟩] := by decide
theorem test_step_idle : step State.reset = .next State.reset := rfl
theorem test_step_refuses_out_of_place :
    step { State.reset with moves := [.issue .encEnd] } = .refused (.notAdmitted .encEnd) := rfl
theorem test_present_refused_in_decode_pass :
    step { decoding 1 [] with moves := [.present []] } = .refused .inputInUse := rfl

/-! ## Memory -/

theorem reset_memory_wf : State.reset.input.wf = true ∧ State.reset.out.wf = true := by decide
theorem test_memory_write_sorted : Memory.write [(0, 1), (2, 3)] 1 7 = [(0, 1), (1, 7), (2, 3)] := by decide
/-- Rule R43: a read of no bytes is defined at the end of the stream and not past it. -/
theorem test_stream_read_none :
    Memory.streamRead (Memory.ofBytes [1, 2]) 2 0 = some [] ∧ Memory.streamRead (Memory.ofBytes [1, 2]) 3 0 = none ∧
    Memory.streamRead (Memory.ofBytes [1, 2]) 0 2 = some [1, 2] ∧ Memory.streamRead (Memory.ofBytes [1, 2]) 1 2 = none := by
  decide

theorem test_memory_hole : Memory.dense [(0, 1), (2, 3)] = false ∧ Memory.len [(0, 1), (2, 3)] = 3 := by decide

/-! ## Witnesses: for each obligation with hypotheses, states and operands that meet all of them -/

/-- Operands at both ends of their ranges. -/
theorem witness_DecodeOfEncodeIsItem :
    (Instr.diff (-2) 1 1).wf = true ∧ (Instr.diff 1 (-2) (-2)).wf = true ∧
    (Instr.luma (-32) (-8) (-8)).wf = true ∧ (Instr.luma 31 7 7).wf = true ∧
    (Instr.run 1).wf = true ∧ (Instr.run 62).wf = true ∧ (Instr.index 63).wf = true ∧
    (Instr.header Config.exampleMagic 0xFFFFFFFF 0 3 1).wf = true ∧
    (Instr.header Config.exampleMagic 0 0xFFFFFFFF 4 0).wf = true ∧ Instr.endMarker.wf = true := by decide

theorem witness_EncodeOfDecodedIsBytes_chunk : decodeChunk [0xBF, 0xFF, 0x00] = .item (.luma 31 7 7) [0x00] := by decide
theorem witness_EncodeOfDecodedIsBytes_header :
    decodeHeader (headerBytes 1 2 5 9) = .item (.header Config.exampleMagic 1 2 5 9) [] := by decide

/-- One byte short, and exactly enough. -/
theorem witness_FirstByteFixesLength :
    ([1, 2, 3] : List Byte).length + 1 < (classify 0xFF).length ∧
    (classify 0xFF).length ≤ ([1, 2, 3, 4] : List Byte).length + 1 := by decide

/-- Of the six chunk results (`IndexProducesSlot`, `DiffAddsDeltas`, `LumaAddsDeltas`, `RgbKeepsAlpha`, `RgbaIsLiteral`), at
the first and the last pixel of an image. -/
theorem witness_chunk_admitted :
    ((decoding 2 []).phase = .dec ∧ (decoding 2 []).pixcnt < (decoding 2 []).npix) ∧
    (midDecode.phase = .dec ∧ midDecode.pixcnt < midDecode.npix ∧ midDecode.pixcnt + 1 = midDecode.npix) := by decide

/-- A run that ends exactly with the image, and one that asks for one pixel more. -/
theorem witness_RunRepeatsPrevious :
    1 ≤ 1 ∧ midDecode.phase = .dec ∧ midDecode.pixcnt < midDecode.npix ∧
    min 1 (midDecode.npix - midDecode.pixcnt) = 1 ∧ midDecode.npix - midDecode.pixcnt < 2 := by decide

/-- A chunk in the wrong phase, and in the right one with no pixel to come; a header inside a pass; END with a pixel to come. -/
theorem witness_ItemsRefusedOutOfPlace :
    (Instr.run 1).position = .chunk ∧
    ¬ (State.reset.phase = .dec ∧ State.reset.pixcnt < State.reset.npix) ∧
    ¬ ((atEnd []).phase = .dec ∧ (atEnd []).pixcnt < (atEnd []).npix) ∧
    (Instr.header Config.exampleMagic 1 1 4 0).position = .header ∧
    ¬ (midDecode.phase = .idle ∨ midDecode.phase = .done ∨ midDecode.phase = .failed) ∧
    Instr.endMarker.position = .trailer ∧ ¬ (midDecode.phase = .dec ∧ midDecode.pixcnt = midDecode.npix) := by decide

theorem witness_HeaderBeginsDecodePass :
    (State.reset.phase = .idle ∨ State.reset.phase = .done ∨ State.reset.phase = .failed) ∧
    ((3 : Byte) = 3 ∨ (3 : Byte) = 4) ∧ ((1 : Byte) = 0 ∨ (1 : Byte) = 1) := by decide

/-- A wrong magic, a wrong `CH` on either side of the set, a wrong `CS`. -/
theorem witness_BadHeaderRaisesFormat :
    (State.reset.phase = .idle ∨ State.reset.phase = .done ∨ State.reset.phase = .failed) ∧
    (⟨0x71, 0x6F, 0x69, 0x67⟩ : Magic) ≠ State.reset.cfg.magic ∧
    ¬ ((2 : Byte) = 3 ∨ (2 : Byte) = 4) ∧ ¬ ((5 : Byte) = 3 ∨ (5 : Byte) = 4) ∧
    ¬ ((2 : Byte) = 0 ∨ (2 : Byte) = 1) := by decide

/-- The trailer there; seven bytes of it; nothing. -/
theorem witness_EndExaminesTrailer :
    ((atEnd Config.trailer).phase = .dec ∧ (atEnd Config.trailer).pixcnt = (atEnd Config.trailer).npix ∧
      (atEnd Config.trailer).input.dense = true ∧
      (atEnd Config.trailer).input.streamRead (atEnd Config.trailer).ipos 8 = some [0, 0, 0, 0, 0, 0, 0, 1]) ∧
    ((atEnd [0, 0, 0, 0, 0, 0, 0]).input.dense = true ∧
      (atEnd [0, 0, 0, 0, 0, 0, 0]).input.streamRead 15 8 ≠ some [0, 0, 0, 0, 0, 0, 0, 1]) ∧
    ((atEnd []).input.dense = true ∧ (atEnd []).input.streamRead 15 8 ≠ some [0, 0, 0, 0, 0, 0, 0, 1]) := by decide

/-- With no move to come; a command of either direction, one that is refused, one whose fetch comes up short. -/
theorem witness_StepRunsDecodedItem_moves :
    State.reset.moves = [] ∧
    ({ encoding 2 4 with moves := [.issue (.encPixel (grey 9)), .issue .reset] } : State).moves =
      .issue (.encPixel (grey 9)) :: [.issue .reset] ∧
    ({ midDecode with moves := [.issue .encEnd] } : State).moves = .issue .encEnd :: [] ∧
    ({ decoding 1 [] with moves := [.issue .decChunk] } : State).moves = .issue .decChunk :: [] := by decide

/-- The step of an encoder's command: vector V-E7's first pixel, a LUMA of two bytes after the header. -/
theorem test_step_enc_pixel :
    (nextOf (step { encoding 2 4 with moves := [.issue (.encPixel (grey 7)), .issue .reset] })).out.bytes.drop 14 =
      [0xA7, 0x88] ∧
    (nextOf (step { encoding 2 4 with moves := [.issue (.encPixel (grey 7)), .issue .reset] })).moves =
      [.issue .reset] := by decide

theorem witness_StepRunsDecodedItem_header :
    decode .header (({ State.reset with input := Memory.ofBytes (headerBytes 3 2 4 1), moves := [.issue .decStart] } :
      State).input.window 0 14) = .item (.header Config.exampleMagic 3 2 4 1) [] := by decide
theorem witness_StepRunsDecodedItem_chunk :
    midDecode.phase = .dec ∧ midDecode.pixcnt < midDecode.npix ∧
    decode .chunk (midDecode.input.window midDecode.ipos 5) = .item (.index 14) [] := by decide
theorem witness_StepRunsDecodedItem_trailer :
    (atEnd Config.trailer).phase = .dec ∧ (atEnd Config.trailer).pixcnt = (atEnd Config.trailer).npix ∧
    decode .trailer ((atEnd Config.trailer).input.window (atEnd Config.trailer).ipos 8) = .item .endMarker [] := by decide

theorem witness_ChunkAtPositionIsExecuted :
    midDecode.phase = .dec ∧ midDecode.pixcnt < midDecode.npix ∧ midDecode.input.dense = true ∧
    (Instr.index 14).wf = true ∧ (Instr.index 14).position = .chunk ∧
    midDecode.input.bytes.drop midDecode.ipos = encode (.index 14) ++ [] := by decide

/-- An exhausted stream; one that lacks the last byte of an RGBA. -/
theorem witness_ShortChunkRaisesTruncated :
    ((decoding 1 []).input.dense = true ∧ (decoding 1 []).input.len ≤ (decoding 1 []).ipos) ∧
    ((decoding 1 [0xFF, 1, 2, 3]).input.dense = true ∧
      (decoding 1 [0xFF, 1, 2, 3]).input.read (decoding 1 [0xFF, 1, 2, 3]).ipos = some 0xFF ∧
      (decoding 1 [0xFF, 1, 2, 3]).input.len - (decoding 1 [0xFF, 1, 2, 3]).ipos < (classify 0xFF).length) := by decide

/-- One byte short of a header, and a whole one. -/
theorem witness_DecStartReadsHeader :
    (State.reset.phase = .idle ∨ State.reset.phase = .done ∨ State.reset.phase = .failed) ∧
    (Memory.ofBytes ((headerBytes 1 1 4 0).take 13)).dense = true ∧
    (Memory.ofBytes ((headerBytes 1 1 4 0).take 13)).len < 14 ∧
    (Memory.ofBytes (headerBytes 1 1 4 0)).dense = true ∧
    (Memory.ofBytes (headerBytes 1 1 4 0)).bytes = [0x71, 0x6F, 0x69, 0x66, 0, 0, 0, 1, 0, 0, 0, 1, 4, 0] ++ [] := by decide

/-- Each command where it is admitted. -/
theorem witness_CommandsStepWhereAdmitted :
    Command.admitted .reset State.reset ∧ Command.admitted (.encStart (2 ^ 32 - 1) 0 4 1) State.reset ∧
    Command.admitted (.encPixel (grey 0)) (encoding 1 4) ∧ Command.admitted .encEnd (encoding 0 4) ∧
    Command.admitted .decStart State.reset ∧ Command.admitted .decChunk midDecode ∧
    Command.admitted .decEnd (atEnd []) := by
  refine ⟨trivial, ?_, ?_, ?_, ?_, ?_, ?_⟩ <;> unfold Command.admitted <;> decide

/-- Each command but `RESET` where it is not admitted: in the wrong phase, with a pixel too many or too few, with a
dimension of 33 bits. -/
theorem witness_CommandsStepWhereAdmitted_not :
    ¬ Command.admitted (.encStart (2 ^ 32) 0 4 1) State.reset ∧ ¬ Command.admitted (.encStart 1 1 4 1) midDecode ∧
    ¬ Command.admitted (.encPixel (grey 0)) (encoding 0 4) ∧ ¬ Command.admitted .encEnd (encoding 1 4) ∧
    ¬ Command.admitted .decStart midDecode ∧ ¬ Command.admitted .decChunk (atEnd []) ∧
    ¬ Command.admitted .decEnd midDecode := by
  refine ⟨?_, ?_, ?_, ?_, ?_, ?_, ?_⟩ <;> unfold Command.admitted <;> decide

theorem witness_EncStartEmitsHeader :
    (State.reset.phase = .idle ∨ State.reset.phase = .done ∨ State.reset.phase = .failed) ∧
    2 ^ 32 - 1 < 2 ^ 32 ∧ 0 < 2 ^ 32 ∧ (3 = 3 ∨ 3 = 4) ∧ (1 = 0 ∨ 1 = 1) := by decide

/-- The run reaches 62; the last pixel comes; neither. -/
theorem witness_EncPixelCountsRun :
    ((encoding 100 4).phase = .enc ∧ forceAlpha (encoding 100 4).ch (grey 0) = (encoding 100 4).prev ∧
      ({ encoding 100 4 with run := 61, pixcnt := 61 } : State).run + 1 = 62 ∧
      ({ encoding 100 4 with run := 61, pixcnt := 61 } : State).pixcnt < (encoding 100 4).npix) ∧
    ((encoding 1 4).pixcnt < (encoding 1 4).npix ∧ (encoding 1 4).pixcnt + 1 = (encoding 1 4).npix) ∧
    ((encoding 2 4).pixcnt < (encoding 2 4).npix ∧
      ¬ ((encoding 2 4).run + 1 = 62 ∨ (encoding 2 4).pixcnt + 1 = (encoding 2 4).npix)) := by decide

/-- With a pending run and without. -/
theorem witness_EncPixelEmitsChunk :
    ((encoding 2 4).phase = .enc ∧ (encoding 2 4).pixcnt < (encoding 2 4).npix ∧
      forceAlpha (encoding 2 4).ch (grey 1) ≠ (encoding 2 4).prev ∧ (encoding 2 4).run = 0) ∧
    (0 < ({ encoding 2 4 with run := 1, pixcnt := 1 } : State).run ∧
      ({ encoding 2 4 with run := 1, pixcnt := 1 } : State).pixcnt < (encoding 2 4).npix) := by decide

/-- The range condition of DIFF in `PriorityChainPicksFirstLegal`. -/
def diffFits (p prev : Pixel) : Bool :=
  decide (-2 ≤ (p.r.toNat : Int) - prev.r.toNat ∧ (p.r.toNat : Int) - prev.r.toNat ≤ 1 ∧
    -2 ≤ (p.g.toNat : Int) - prev.g.toNat ∧ (p.g.toNat : Int) - prev.g.toNat ≤ 1 ∧
    -2 ≤ (p.b.toNat : Int) - prev.b.toNat ∧ (p.b.toNat : Int) - prev.b.toNat ≤ 1)

/-- The range condition of LUMA there. -/
def lumaFits (p prev : Pixel) : Bool :=
  let dr : Int := p.r.toNat - prev.r.toNat
  let dg : Int := p.g.toNat - prev.g.toNat
  let db : Int := p.b.toNat - prev.b.toNat
  decide (-32 ≤ dg ∧ dg ≤ 31 ∧ -8 ≤ dr - dg ∧ dr - dg ≤ 7 ∧ -8 ≤ db - dg ∧ db - dg ≤ 7)

/-- The second pixel after a grey one: INDEX (the zero pixel); DIFF with deltas at both ends (V-E2, V-E3); LUMA one past
DIFF and at its own end (V-E4, V-E19); RGB one past LUMA (V-E19); RGBA. -/
theorem witness_PriorityChainPicksFirstLegal :
    let s : State := { encoding 2 4 with prev := grey 100 }
    let miss (p : Pixel) : Bool := decide (lookup s.cache (cacheIndex p) ≠ p)
    s.cfg.encDeltaWrap = false ∧
    lookup s.cache (cacheIndex ⟨0, 0, 0, 0⟩) = ⟨0, 0, 0, 0⟩ ∧
    (miss ⟨98, 101, 98, 255⟩ = true ∧ diffFits ⟨98, 101, 98, 255⟩ s.prev = true) ∧
    (miss ⟨102, 100, 100, 255⟩ = true ∧ diffFits ⟨102, 100, 100, 255⟩ s.prev = false ∧
      lumaFits ⟨102, 100, 100, 255⟩ s.prev = true) ∧
    (miss ⟨138, 131, 138, 255⟩ = true ∧ diffFits ⟨138, 131, 138, 255⟩ s.prev = false ∧
      lumaFits ⟨138, 131, 138, 255⟩ s.prev = true) ∧
    (miss ⟨139, 131, 138, 255⟩ = true ∧ diffFits ⟨139, 131, 138, 255⟩ s.prev = false ∧
      lumaFits ⟨139, 131, 138, 255⟩ s.prev = false) ∧
    (miss ⟨100, 100, 100, 254⟩ = true ∧ (254 : Byte) ≠ s.prev.a) := by decide

/-- An image without pixels: its pass is at its end at once. -/
theorem witness_EncEndEmitsTrailer : (encoding 0 4).phase = .enc ∧ (encoding 0 4).pixcnt = (encoding 0 4).npix := by decide

theorem cache_slots_update_fresh : SlotsIndexed (update freshCache ⟨1, 2, 3, 4⟩) :=
  slotsIndexed_update slotsIndexed_fresh _

/-- The invariant at the end of an encode pass. -/
theorem witness_inv_encoding : Inv (encoding 0 4) where
  inputWf := by decide
  inputDense := by decide
  outWf := by decide
  outDense := by decide
  errorPhase := by decide
  noInternal := by decide
  encPass := fun _ =>
    ⟨⟨slotsIndexed_fresh, by decide, by decide, by decide, by decide⟩,
      ⟨by decide, by decide, by decide, by decide, fun h => absurd h (by decide), by decide, by decide⟩⟩
  decPass := fun h => absurd h (by decide)

/-- The invariant inside a decode pass: also the witness of `UpdateIdempotentOnRunAndHit`, with the next theorem. -/
theorem witness_inv_midDecode : Inv midDecode where
  inputWf := by decide
  inputDense := by decide
  outWf := by decide
  outDense := by decide
  errorPhase := by decide
  noInternal := by decide
  encPass := fun h => absurd h (by decide)
  decPass := fun _ =>
    ⟨⟨cache_slots_update_fresh, by decide, by decide, by decide, by decide⟩,
      ⟨by decide, rfl, by decide, by decide, by decide⟩⟩

theorem witness_UpdateIdempotentOnRunAndHit :
    midDecode.phase = .dec ∧ midDecode.pixcnt < midDecode.npix ∧ 0 < midDecode.pixcnt ∧
    lookup midDecode.cache 14 ≠ Config.zeroPixel := by decide

/-- A step inside a decode pass. -/
theorem witness_StepKeepsInvariant :
    step { midDecode with moves := [.issue .decChunk] } = .next (nextOf (step { midDecode with moves := [.issue .decChunk] })) :=
  eq_next (by decide)

theorem witness_inv_midDecode_moves : Inv { midDecode with moves := [.issue .decChunk] } where
  inputWf := by decide
  inputDense := by decide
  outWf := by decide
  outDense := by decide
  errorPhase := by decide
  noInternal := by decide
  encPass := fun h => absurd h (by decide)
  decPass := fun _ =>
    ⟨⟨cache_slots_update_fresh, by decide, by decide, by decide, by decide⟩,
      ⟨by decide, rfl, by decide, by decide, by decide⟩⟩

/-- A chosen chunk of every kind has a state to be executed in; a run that ends exactly with the image. -/
theorem witness_ChosenChunkReproducesPixel :
    (midDecode.phase = .dec ∧ midDecode.pixcnt < midDecode.npix) ∧
    midDecode.chooseChunk ⟨0, 0, 0, 0⟩ = .index 0 ∧ midDecode.chooseChunk ⟨0, 3, 3, 4⟩ = .diff (-1) 1 0 ∧
    midDecode.chooseChunk ⟨3, 4, 5, 4⟩ = .luma 2 0 0 ∧ midDecode.chooseChunk ⟨99, 2, 3, 4⟩ = .rgb 99 2 3 ∧
    midDecode.chooseChunk ⟨1, 2, 3, 5⟩ = .rgba 1 2 3 5 ∧
    1 ≤ 1 ∧ midDecode.pixcnt + 1 = midDecode.npix ∧ midDecode.pixcnt + 0 ≤ midDecode.npix := by decide

theorem witness_ExecutedChunkCommitsItsPixels :
    (Instr.run 62).position = .chunk ∧ midDecode.phase = .dec ∧ midDecode.pixcnt < midDecode.npix := by decide

/-- A delta that the reduction changes, at both ends. -/
theorem witness_DeltaAddedGivesChannelBack : channelDelta true 255 0 = -1 ∧ channelDelta true 128 0 = -128 := by decide

/-! The whole passes: an Image of two equal pixels, its stream, and its decode pass. -/

def image : Image := ⟨2, 1, 4, 0, [grey 100, grey 100]⟩

theorem witness_image :
    image.wf = true ∧ (State.reset.phase = .idle ∨ State.reset.phase = .done ∨ State.reset.phase = .failed) ∧
    2 ≤ image.pix.length := by decide

/-- The state after `encode`. -/
def encoded : State := nextOf (encodeImage image State.reset)

theorem witness_encodeImage : encodeImage image State.reset = .next encoded := eq_next (by decide)

/-- The stream of `image`. -/
def stream : List Byte := headerBytes 2 1 4 0 ++ [0xFE, 100, 100, 100, 0xC0, 0, 0, 0, 0, 0, 0, 0, 1]

theorem test_encodeImage : encoded.out.bytes = stream := by decide

/-- After one pixel. -/
theorem witness_OutputLagsByRun :
    runCommands (image.commandsTo 1) State.reset = .next (nextOf (runCommands (image.commandsTo 1) State.reset)) :=
  eq_next (by decide)

/-- The decode pass of the stream has begun. -/
def decoded0 : State := nextOf (startDecode stream State.reset)

theorem witness_LockStep_start : startDecode encoded.out.bytes State.reset = .next decoded0 := by
  rw [test_encodeImage]; exact eq_next (by decide)

/-- One chunk of it has been executed. -/
def decoded1 : State := nextOf (decodeLoop 1 decoded0)

theorem witness_LockStep_loop : decodeLoop 1 decoded0 = .next decoded1 := eq_next (by decide)

/-- The next chunk is the run; the encoder's state at the same pixel is there to compare with. -/
theorem witness_LockStep_inside :
    decoded1.pixcnt < decoded1.npix ∧ decode .chunk (decoded1.input.window decoded1.ipos 5) = .item (.run 1) [0, 0, 0, 0] ∧
    1 ≤ (chunkPixels (.run 1) decoded1).length ∧
    isNext (runCommands (image.commandsTo (decoded1.pixcnt + 1)) State.reset) = true := by decide

theorem witness_DecodeEnds : isNext (decodeStream stream State.reset) = true := by decide

/-- Two instances with different pasts: one fresh, one that has just encoded the Image. -/
theorem witness_PassIndependentOfPast :
    State.reset.cfg = encoded.cfg ∧ (encoded.phase = .idle ∨ encoded.phase = .done ∨ encoded.phase = .failed) := by decide

/-! Rules about every step: each clause's change does happen. -/

theorem witness_RegistersWrittenByListedCommands :
    ((nextOf (runCommand .decChunk midDecode)).pixcnt ≠ midDecode.pixcnt ∧
      (nextOf (runCommand .decChunk midDecode)).ipos ≠ midDecode.ipos) ∧
    ((nextOf (runCommand (.encPixel (grey 0)) (encoding 2 4))).run ≠ (encoding 2 4).run ∧
      (nextOf (runCommand (.encPixel (grey 9)) (encoding 2 4))).prev ≠ (encoding 2 4).prev ∧
      (nextOf (runCommand (.encPixel (grey 9)) (encoding 2 4))).opos ≠ (encoding 2 4).opos) ∧
    ((nextOf (runCommand (.encStart 2 1 4 0) State.reset)).w ≠ State.reset.w ∧
      (nextOf (runCommand (.encStart 2 1 4 0) State.reset)).phase ≠ State.reset.phase) ∧
    ((nextOf (runCommand .decChunk (decoding 1 []))).err ≠ (decoding 1 []).err ∧
      (nextOf (runCommand .decEnd (atEnd []))).diag ≠ (atEnd []).diag) := by decide

theorem witness_runCommand : runCommand .decChunk midDecode = .next (nextOf (runCommand .decChunk midDecode)) :=
  eq_next (by decide)

/-- A byte that is there, and a step that appends others. -/
theorem witness_OutputNeverRewritten :
    isNext (step { encoding 2 4 with moves := [.issue (.encPixel (grey 9))] }) = true ∧
    ({ encoding 2 4 with moves := [.issue (.encPixel (grey 9))] } : State).out.read 13 = some 0 := by decide

/-- A step that changes the input, and one in a decode pass. -/
theorem witness_InputStableInDecodePass :
    isNext (step { State.reset with moves := [.present [1]] }) = true ∧
    (nextOf (step { State.reset with moves := [.present [1]] })).input ≠ State.reset.input ∧
    isNext (step { midDecode with moves := [.issue .decChunk] }) = true ∧ midDecode.phase = .dec := by decide

/-- The host's move that presents an input, admitted and not. -/
theorem witness_InputStableInDecodePass_present :
    HostMove.admitted (.present [1, 2]) { State.reset with moves := [.present [1, 2]] } ∧
    HostMove.admitted (.present []) { encoding 1 4 with moves := [.present []] } ∧
    ¬ HostMove.admitted (.present [1, 2]) { midDecode with moves := [.present [1, 2]] } := by
  refine ⟨?_, ?_, ?_⟩ <;> unfold HostMove.admitted <;> decide

/-- A pass that has failed, and what leaves `FAILED`. -/
theorem witness_FailedLeftOnlyByRestart :
    ({ State.reset with phase := .failed, err := .format, moves := [.issue .reset] } : State).phase = .failed ∧
    isNext (step { State.reset with phase := .failed, err := .format, moves := [.issue .reset] }) = true ∧
    (nextOf (step { State.reset with phase := .failed, err := .format, moves := [.issue .reset] })).phase ≠ .failed ∧
    isNext (step { State.reset with phase := .failed, err := .format, moves := [.issue (.encStart 1 1 3 0)] }) = true := by decide

theorem witness_ErrorsRaisedByListedCommands :
    ((nextOf (runCommand .decStart { State.reset with input := Memory.ofBytes (headerBytes 1 1 5 0) })).err = .format ∧
      State.reset.err ≠ .format) ∧
    ((nextOf (runCommand .decChunk (decoding 1 []))).err = .truncated ∧ (decoding 1 []).err ≠ .truncated ∧
      (nextOf (runCommand .decChunk (decoding 1 []))).phase = .failed ∧ (decoding 1 []).phase ≠ .failed) := by decide

theorem witness_InternalErrorUnreachable : midDecode.err ≠ .internal ∧ isNext (step midDecode) = true := by decide

/-! Several instances. -/

/-- Two instances: one encodes two pixels, one decodes a chunk. -/
def pair : System :=
  [{ encoding 2 4 with moves := [.issue (.encPixel (grey 7)), .issue (.encPixel (grey 7))] },
   { midDecode with moves := [.issue .decChunk] }]

/-- The next system of a result, or none. -/
def systemOf (r : SystemResult) : System :=
  match r with
  | .next sys => sys
  | .fault _ => []
  | .refused _ => []

/-- Vector V-E7's first pixel and a run, beside vector V-D23 and an INDEX, in two interleavings. -/
theorem test_interleavings :
    (systemOf (System.interleave [0, 1, 0] pair)).map (fun s => (s.out.bytes.drop 14, s.pout)) =
      [([0xA7, 0x88, 0xC0], []), ([], [⟨1, 2, 3, 4⟩, ⟨1, 2, 3, 4⟩])] ∧
    systemOf (System.interleave [1, 0, 0] pair) = systemOf (System.interleave [0, 1, 0] pair) := by decide

/-- Rule R217: the pixels of one image on two instances give other bytes, here (1,2,3,255) twice (`A2 79 C0`, vector V-E14). -/
theorem test_split_changes_bytes :
    emitted ⟨1, 2, 3, 255⟩ (encoding 2 4) = [0xA2, 0x79] ∧
    emitted ⟨1, 2, 3, 255⟩ (nextOf (runCommand (.encPixel ⟨1, 2, 3, 255⟩) (encoding 2 4))) = [0xC0] ∧
    emitted ⟨1, 2, 3, 255⟩ (encoding 1 4) = [0xA2, 0x79] := by decide

theorem witness_StepsRunCommandsInOrder :
    (pair[0]).moves = [Command.encPixel (grey 7), Command.encPixel (grey 7)].map .issue ++ [] ∧
    isNext (runSteps 2 pair[0]) = true := by decide

theorem witness_InstancesPowerOnIdle : [Config.mk Config.exampleMagic false, Config.mk Config.exampleMagic true][1]? =
    some (Config.mk Config.exampleMagic true) := by decide

/-- A step that is there, one that is refused, a receiver outside a decode pass and one in it. -/
theorem witness_InstanceMoveTouchesNoOther :
    pair[0]? = some pair[0] ∧ isNext (step pair[0]) = true ∧ (systemOf (System.stepAt 0 pair)).length = 2 ∧
    ([State.reset, { midDecode with moves := [.issue .encEnd] }] : System)[1]? =
      some { midDecode with moves := [.issue .encEnd] } ∧
    step { midDecode with moves := [.issue .encEnd] } = .refused (.notAdmitted .encEnd) ∧
    (pair[0].phase ≠ .dec ∧ pair[1]? = some pair[1] ∧ pair[1].phase = .dec) := by
  refine ⟨rfl, by decide, by decide, rfl, rfl, by decide⟩

theorem witness_InterleavingsAgree :
    (∀ k, k < pair.length → [0, 1, 0].count k = [1, 0, 0].count k) ∧
    (systemOf (System.interleave [0, 1, 0] pair)).length = pair.length := by
  refine ⟨fun k hk => ?_, by decide⟩
  have : k = 0 ∨ k = 1 := by have : pair.length = 2 := rfl; omega
  rcases this with rfl | rfl <;> rfl

end Sys2Proof.Tests
end

section
/-! Decoding what the encoder writes: a well-formed chunk and a header are read back from their bytes (rules R61, R67 to
R73), and a chosen chunk describes the pixel it was chosen for (rule R119). -/

namespace Sys2Proof

/-! ## Bytes and back -/

theorem decodeChunk_encodeIndex (k : Fin 64) (rest : List Byte) :
    decodeChunk (encode (.index k) ++ rest) = .item (.index k) rest := by
  have byte : (BitVec.ofNat 8 k.val).toNat = k.val := by
    rw [BitVec.toNat_ofNat, Nat.mod_eq_of_lt (by omega)]
  have tag : classify (BitVec.ofNat 8 k.val) = .index := by
    rw [classify_eq, byte, if_pos k.isLt]
  have field : decodeIndex (BitVec.ofNat 8 k.val) = .index k := by
    rw [decodeIndex, bits, byte, Instr.index.injEq, Fin.ext_iff]
    simp only [Fin.val_ofNat]
    omega
  simp [encode, decodeChunk, tag, field]

theorem decodeChunk_encodeDiff {dr dg db : Int} (wf : (Instr.diff dr dg db).wf = true) (rest : List Byte) :
    decodeChunk (encode (.diff dr dg db) ++ rest) = .item (.diff dr dg db) rest := by
  simp only [Instr.wf, Bool.and_eq_true, inRange_iff] at wf
  obtain ⟨⟨red, green⟩, blue⟩ := wf
  have byte := toNat_ofInt (n := 0x40 + (dr + 2) * 16 + (dg + 2) * 4 + (db + 2)) (by omega) (by omega)
  have tag : classify (BitVec.ofInt 8 (0x40 + (dr + 2) * 16 + (dg + 2) * 4 + (db + 2))) = .diff := by
    rw [classify_eq, byte, if_neg (by omega), if_pos (by omega)]
  have fields : decodeDiff (BitVec.ofInt 8 (0x40 + (dr + 2) * 16 + (dg + 2) * 4 + (db + 2))) = .diff dr dg db := by
    simp only [decodeDiff, bits, unbias, byte, Instr.diff.injEq]
    omega
  simp only [encode, List.singleton_append, decodeChunk, tag, fields]

theorem decodeChunk_encodeLuma {dg drg dbg : Int} (wf : (Instr.luma dg drg dbg).wf = true) (rest : List Byte) :
    decodeChunk (encode (.luma dg drg dbg) ++ rest) = .item (.luma dg drg dbg) rest := by
  simp only [Instr.wf, Bool.and_eq_true, inRange_iff] at wf
  obtain ⟨⟨green, red⟩, blue⟩ := wf
  have first := toNat_ofInt (n := 0x80 + (dg + 32)) (by omega) (by omega)
  have second := toNat_ofInt (n := (drg + 8) * 16 + (dbg + 8)) (by omega) (by omega)
  have tag : classify (BitVec.ofInt 8 (0x80 + (dg + 32))) = .luma := by
    rw [classify_eq, first, if_neg (by omega), if_neg (by omega), if_pos (by omega)]
  have fields : decodeLuma (BitVec.ofInt 8 (0x80 + (dg + 32))) (BitVec.ofInt 8 ((drg + 8) * 16 + (dbg + 8))) =
      .luma dg drg dbg := by
    simp only [decodeLuma, bits, unbias, first, second, Instr.luma.injEq]
    omega
  simp only [encode, List.cons_append, List.nil_append, decodeChunk, tag, fields]

theorem decodeChunk_encodeRun {n : Nat} (wf : (Instr.run n).wf = true) (rest : List Byte) :
    decodeChunk (encode (.run n) ++ rest) = .item (.run n) rest := by
  simp only [Instr.wf, Bool.and_eq_true, decide_eq_true_eq] at wf
  have byte := toNat_ofInt (n := 0xC0 + ((n : Int) - 1)) (by omega) (by omega)
  have tag : classify (BitVec.ofInt 8 (0xC0 + ((n : Int) - 1))) = .run := by
    rw [classify_eq, byte, if_neg (by omega), if_neg (by omega), if_neg (by omega), if_pos (by omega)]
  have field : decodeRun (BitVec.ofInt 8 (0xC0 + ((n : Int) - 1))) = .run n := by
    simp only [decodeRun, bits, byte, Instr.run.injEq]
    omega
  simp only [encode, List.singleton_append, decodeChunk, tag, field]

/-- A well-formed chunk is read back from its bytes, whatever follows them. -/
theorem decodeChunk_encode {i : Instr} (wf : i.wf = true) (chunk : i.position = .chunk) (rest : List Byte) :
    decodeChunk (encode i ++ rest) = .item i rest := by
  cases i with
  | rgb => rfl
  | rgba => rfl
  | index k => exact decodeChunk_encodeIndex k rest
  | diff => exact decodeChunk_encodeDiff wf rest
  | luma => exact decodeChunk_encodeLuma wf rest
  | run => exact decodeChunk_encodeRun wf rest
  | header => cases chunk
  | endMarker => cases chunk

/-- A header is read back from its bytes, legal or not (rule R61). -/
theorem decodeHeader_encode (m : Magic) (w h : Dim) (ch cs : Byte) (rest : List Byte) :
    decodeHeader (encode (.header m w h ch cs) ++ rest) = .item (.header m w h ch cs) rest := by
  simp only [encode, be32, List.cons_append, List.nil_append, decodeHeader, fromBe32_be32]

/-- No chunk is longer than five bytes (rule R66). -/
theorem chunk_length_le {i : Instr} (chunk : i.position = .chunk) : i.length ≤ 5 := by
  cases i with
  | header => cases chunk
  | endMarker => cases chunk
  | _ => simp [Instr.length]

/-- Every item has a byte at least. -/
theorem item_length_pos (i : Instr) : 0 < i.length := by cases i <;> simp [Instr.length]

end Sys2Proof

namespace Sys2Proof.Machine

/-! ## Deltas, added modulo 256 (rules R110, R125, R136) -/

theorem addDelta_eq_iff (prev c : Byte) (d : Int) : addDelta prev d = c ↔ ((prev.toNat : Int) + d) % 256 = c.toNat := by
  have := c.isLt
  rw [addDelta, ← BitVec.toNat_inj, BitVec.toNat_ofInt]
  omega

/-- Reducing a delta does not change it modulo 256, under either setting of `ENC_DELTA_WRAP`. -/
theorem reduceDelta_emod (wrap : Bool) (d : Int) : reduceDelta wrap d % 256 = d % 256 := by
  cases wrap with
  | false => rfl
  | true =>
    simp only [reduceDelta, if_true, sext8]
    split <;> omega

theorem channelDelta_emod (wrap : Bool) (c prev : Byte) :
    channelDelta wrap c prev % 256 = ((c.toNat : Int) - prev.toNat) % 256 := reduceDelta_emod _ _

/-- A delta, added to the channel it was taken from, gives the other channel. -/
theorem addDelta_channelDelta (wrap : Bool) (c prev : Byte) : addDelta prev (channelDelta wrap c prev) = c := by
  have delta := channelDelta_emod wrap c prev
  have := c.isLt
  rw [addDelta_eq_iff]
  omega

/-- So does one taken relative to green and added to it again (rule R105). -/
theorem addDelta_green_add (wrap : Bool) (c prev : Byte) (dg : Int) :
    addDelta prev (dg + reduceDelta wrap (channelDelta wrap c prev - dg)) = c := by
  have delta := channelDelta_emod wrap c prev
  have relative := reduceDelta_emod wrap (channelDelta wrap c prev - dg)
  have := c.isLt
  rw [addDelta_eq_iff]
  omega

/-! ## The chosen chunk (rule R119) -/

/-- A chunk chosen for a pixel is a well-formed chunk: the legality predicates are the operand ranges (rules R126, R127). -/
theorem chooseChunk_wf (p : Pixel) (s : State) : (s.chooseChunk p).wf = true ∧ (s.chooseChunk p).position = .chunk := by
  unfold State.chooseChunk selectChunk
  dsimp only
  split
  · exact ⟨rfl, rfl⟩
  split
  · rename_i fit; exact ⟨fit.2, rfl⟩
  split
  · rename_i fit; exact ⟨fit.2, rfl⟩
  split <;> exact ⟨rfl, rfl⟩

/-- Executed from the cache and the previous pixel it was chosen with, it produces the pixel it was chosen for. -/
theorem chunkPixels_chooseChunk {s d : State} (cache : d.cache = s.cache) (prev : d.prev = s.prev) (p : Pixel) :
    chunkPixels (s.chooseChunk p) d = [p] := by
  unfold State.chooseChunk selectChunk
  dsimp only
  split
  case isTrue hit => simp [chunkPixels, cache, hit]
  split
  case isTrue fit =>
    simp [chunkPixels, diffPixel, prev, pixelDeltas, addDelta_channelDelta, ← fit.1]
  split
  case isTrue fit =>
    simp [chunkPixels, lumaPixel, prev, pixelDeltas, addDelta_channelDelta, addDelta_green_add, ← fit.1]
  split
  case isTrue alpha => simp [chunkPixels, rgbPixel, prev, ← alpha]
  case isFalse => rfl

/-- A run that fits in the image produces `PREV` as often as it says (rule R106). -/
theorem chunkPixels_run {s : State} {n : Nat} (fits : s.pixcnt + n ≤ s.npix) :
    chunkPixels (.run n) s = List.replicate n s.prev := by
  rw [chunkPixels, Nat.min_eq_left (by omega)]

end Sys2Proof.Machine
end

section
/-! The invariant of the machine (rules R30, R37, R41, R44): it holds after reset, every way a command reaches a next state
keeps it, and so every step does. -/

namespace Sys2Proof.Machine

/-! ## One pixel of the encoder, field by field (rules R94, R132), and what it costs -/

@[simp] theorem encodePixel_cache (p : Pixel) (s : State) : (s.encodePixel p).cache = update s.cache p := by
  rw [encodePixel_eq]
@[simp] theorem encodePixel_prev (p : Pixel) (s : State) : (s.encodePixel p).prev = p := by rw [encodePixel_eq]
@[simp] theorem encodePixel_run (p : Pixel) (s : State) : (s.encodePixel p).run = runAfter p s := by
  rw [encodePixel_eq]
@[simp] theorem encodePixel_w (p : Pixel) (s : State) : (s.encodePixel p).w = s.w := by rw [encodePixel_eq]
@[simp] theorem encodePixel_h (p : Pixel) (s : State) : (s.encodePixel p).h = s.h := by rw [encodePixel_eq]
@[simp] theorem encodePixel_ch (p : Pixel) (s : State) : (s.encodePixel p).ch = s.ch := by rw [encodePixel_eq]
@[simp] theorem encodePixel_cs (p : Pixel) (s : State) : (s.encodePixel p).cs = s.cs := by rw [encodePixel_eq]
@[simp] theorem encodePixel_pixcnt (p : Pixel) (s : State) : (s.encodePixel p).pixcnt = s.pixcnt + 1 := by
  rw [encodePixel_eq]
@[simp] theorem encodePixel_ipos (p : Pixel) (s : State) : (s.encodePixel p).ipos = s.ipos := by rw [encodePixel_eq]
@[simp] theorem encodePixel_opos (p : Pixel) (s : State) :
    (s.encodePixel p).opos = s.opos + (pixelBytes p s).length := by rw [encodePixel_eq]
@[simp] theorem encodePixel_phase (p : Pixel) (s : State) : (s.encodePixel p).phase = s.phase := by rw [encodePixel_eq]
@[simp] theorem encodePixel_err (p : Pixel) (s : State) : (s.encodePixel p).err = s.err := by rw [encodePixel_eq]
@[simp] theorem encodePixel_diag (p : Pixel) (s : State) : (s.encodePixel p).diag = s.diag := by rw [encodePixel_eq]
@[simp] theorem encodePixel_input (p : Pixel) (s : State) : (s.encodePixel p).input = s.input := by rw [encodePixel_eq]
@[simp] theorem encodePixel_out (p : Pixel) (s : State) :
    (s.encodePixel p).out = s.out.append (pixelBytes p s) := by rw [encodePixel_eq]
@[simp] theorem encodePixel_moves (p : Pixel) (s : State) : (s.encodePixel p).moves = s.moves := by rw [encodePixel_eq]
@[simp] theorem encodePixel_cfg (p : Pixel) (s : State) : (s.encodePixel p).cfg = s.cfg := by rw [encodePixel_eq]
@[simp] theorem encodePixel_npix (p : Pixel) (s : State) : (s.encodePixel p).npix = s.npix := by simp [State.npix]

/-- A run that is still pending after a pixel is one longer than before, below 62, and not at the last pixel. -/
theorem runAfter_cases (p : Pixel) (s : State) :
    runAfter p s = 0 ∨ (runAfter p s = s.run + 1 ∧ s.run + 1 ≠ 62 ∧ s.pixcnt + 1 ≠ s.npix) := by
  unfold runAfter
  split
  · split
    · exact .inl rfl
    · exact .inr ⟨rfl, by omega, by omega⟩
  · exact .inl rfl

/-- A pixel costs at most five bytes, with one byte set aside for a run that is pending (rule R212). -/
theorem pixelBytes_length_le (p : Pixel) (s : State) :
    (pixelBytes p s).length + (if 0 < runAfter p s then 1 else 0) ≤ (if 0 < s.run then 1 else 0) + 5 := by
  have run_length : ∀ n, (encode (.run n)).length = 1 := fun _ => rfl
  have chunk : (encode (s.chooseChunk p)).length ≤ 5 := by
    rw [Laws.encode_length]
    exact chunk_length_le (chooseChunk_wf p s).2
  unfold pixelBytes runAfter
  split
  · split
    · simp [run_length]
    · simp
  · split <;> simp [run_length] <;> omega

/-- In a 3-channel pass every pixel taken is opaque (rule R121). -/
theorem forceAlpha_opaque {ch : Byte} (three : ch = 3) (p : Pixel) : (forceAlpha ch p).a = 255 := by
  simp [forceAlpha, three]

/-! ## The invariant, layer by layer -/

/-- Pixels taken into cache, `PREV` and `PIXCNT` keep what holds in a pass of either direction. -/
theorem PassInv.pixels {s t : State} {ps : List Pixel} (inv : PassInv s) (cache : t.cache = ps.foldl update s.cache)
    (prev : t.prev = ps.getLastD s.prev) (pixcnt : t.pixcnt = s.pixcnt + ps.length) (bound : t.pixcnt ≤ t.npix)
    (ch : t.ch = s.ch) (cs : t.cs = s.cs) : PassInv t where
  slots := by rw [cache]; exact slotsIndexed_foldl inv.slots
  bound := bound
  recent := by
    intro counted
    rw [cache, prev]
    cases ps with
    | nil => exact inv.recent (by simpa [pixcnt] using counted)
    | cons p ps =>
      have last : (p :: ps).getLastD s.prev = ps.getLastD p := by cases ps <;> rfl
      rw [last, List.foldl_cons]
      exact lookup_foldl_last (lookup_update_self s.cache p)
  channels := by rw [ch]; exact inv.channels
  colorspace := by rw [cs]; exact inv.colorspace

/-- At the start of a pass of either direction. -/
theorem PassInv.start {t : State} (cache : t.cache = freshCache) (pixcnt : t.pixcnt = 0)
    (ch : legalChannels t.ch = true) (cs : legalColorspace t.cs = true) : PassInv t where
  slots := by rw [cache]; exact slotsIndexed_fresh
  bound := by omega
  recent := by omega
  channels := ch
  colorspace := cs

/-- One pixel more, its alpha forced, keeps what holds in an encode pass (rules R37, R139, R212). -/
theorem EncInv.encodePixel {s : State} (inv : EncInv s) (p : Pixel) : EncInv (s.encodePixel (forceAlpha s.ch p)) := by
  have run := runAfter_cases (forceAlpha s.ch p) s
  have bytes := pixelBytes_length_le (forceAlpha s.ch p) s
  obtain ⟨runBound, runCounted, -, -, opaqueSlots, position, room⟩ := inv
  constructor
  case runBound => rw [encodePixel_run]; omega
  case runCounted => rw [encodePixel_run, encodePixel_pixcnt]; omega
  case runFlushed => rw [encodePixel_run, encodePixel_pixcnt, encodePixel_npix]; omega
  case opaquePrev => 
    intro three
    rw [encodePixel_ch] at three
    rw [encodePixel_prev]
    exact forceAlpha_opaque three p
  case opaqueSlots =>
    intro three
    rw [encodePixel_ch] at three
    rw [encodePixel_cache]
    exact slotsOpaque_update (opaqueSlots three) (forceAlpha_opaque three p)
  case position => rw [encodePixel_opos, encodePixel_out, Memory.len_append, position]
  case room => rw [encodePixel_opos, encodePixel_run, encodePixel_pixcnt]; omega

/-- An encode pass begins with the header emitted (rules R34, R154). -/
theorem EncInv.beginEncode (w h : Dim) (ch cs : Byte) (s : State) : EncInv (s.beginEncode w h ch cs) where
  runBound := Nat.zero_le _
  runCounted := Nat.zero_le _
  runFlushed := fun _ => rfl
  opaquePrev := fun _ => rfl
  opaqueSlots := fun _ => slotsOpaque_fresh
  position := (Memory.len_append [] _).symm
  room := Nat.le_refl 14

/-- What a window found is there: it ends within the stream. -/
theorem Memory.window_within {m : Memory} (dense : Memory.dense m = true) (a n : Nat)
    (found : 0 < (Memory.window m a n).length) : a + (Memory.window m a n).length ≤ Memory.len m := by
  rw [Memory.window_dense dense] at found ⊢
  rw [Memory.len_eq_length dense]
  simp only [List.length_take, List.length_drop, Memory.bytes_length] at found ⊢
  omega

/-- An accepted header was all there (rule R158). -/
theorem header_within {m : Memory} {i : Instr} {after : List Byte} (dense : Memory.dense m = true)
    (read : decodeHeader (Memory.window m 0 14) = .item i after) : 14 ≤ Memory.len m := by
  have whole : 14 ≤ (Memory.window m 0 14).length := by
    unfold decodeHeader at read
    split at read
    · rename_i bytes; simp [bytes]
    · cases read
  have := Memory.window_within dense 0 14 (by omega)
  omega

/-- A chunk, executed where one is admitted, keeps what holds in a decode pass (rules R27, R98). -/
theorem DecInv.chunk {s : State} {i : Instr} {after : List Byte} (inv : DecInv s) (dense : s.input.dense = true)
    (read : decodeChunk (s.input.window s.ipos longestChunk) = .item i after) : DecInv (afterChunk i s) := by
  obtain ⟨produced, slotsFromPixels, prevFromPixels, afterHeader, -⟩ := inv
  have length := (decodeChunk_item read).2.1
  have within := Memory.window_within dense s.ipos longestChunk ((item_length_pos i).trans_le length)
  rw [afterChunk_eq]
  constructor
  case produced => simp [produced]
  case slotsFromPixels => simp only [cacheAfter_append_list, slotsFromPixels]
  case prevFromPixels => simp only [prevAfter_append_list, prevFromPixels]
  case afterHeader => exact Nat.le_add_right_of_le afterHeader
  case withinInput => exact (Nat.add_le_add_left length _).trans within

/-- Where no pass is in progress only the streams and `ERR` are bound. -/
theorem Inv.of_no_pass {s t : State} (inv : Inv s) (input : t.input = s.input) (outWf : t.out.wf = true)
    (outDense : t.out.dense = true) (noEnc : t.phase ≠ .enc) (noDec : t.phase ≠ .dec)
    (errorPhase : t.err ≠ .none ↔ t.phase = .failed) (noInternal : t.err ≠ .internal) : Inv t where
  inputWf := by rw [input]; exact inv.inputWf
  inputDense := by rw [input]; exact inv.inputDense
  outWf := outWf
  outDense := outDense
  errorPhase := errorPhase
  noInternal := noInternal
  encPass := fun enc => absurd enc noEnc
  decPass := fun dec => absurd dec noDec

/-- In an encode pass. -/
theorem Inv.of_enc {s t : State} (inv : Inv s) (input : t.input = s.input) (outWf : t.out.wf = true)
    (outDense : t.out.dense = true) (phase : t.phase = .enc) (err : t.err = .none) (pass : PassInv t) (enc : EncInv t) :
    Inv t where
  inputWf := by rw [input]; exact inv.inputWf
  inputDense := by rw [input]; exact inv.inputDense
  outWf := outWf
  outDense := outDense
  errorPhase := by simp [phase, err]
  noInternal := by simp [err]
  encPass := fun _ => ⟨pass, enc⟩
  decPass := fun dec => by simp [phase] at dec

/-- In a decode pass. -/
theorem Inv.of_dec {s t : State} (inv : Inv s) (input : t.input = s.input) (out : t.out = s.out)
    (phase : t.phase = .dec) (err : t.err = .none) (pass : PassInv t) (dec : DecInv t) : Inv t where
  inputWf := by rw [input]; exact inv.inputWf
  inputDense := by rw [input]; exact inv.inputDense
  outWf := by rw [out]; exact inv.outWf
  outDense := by rw [out]; exact inv.outDense
  errorPhase := by simp [phase, err]
  noInternal := by simp [err]
  encPass := fun enc => by simp [phase] at enc
  decPass := fun _ => ⟨pass, dec⟩

/-- In a pass there is no error (rule R30). -/
theorem Inv.err_none {s : State} (inv : Inv s) (pass : s.phase ≠ .failed) : s.err = .none := by
  by_contra raised
  exact pass (inv.errorPhase.mp raised)

/-! ## Every way to a next state keeps it -/

theorem Inv.encodePixel {s : State} (inv : Inv s) (admitted : s.pixelAdmitted = true) (p : Pixel) :
    Inv (s.encodePixel (forceAlpha s.ch p)) := by
  obtain ⟨phase, more⟩ := (pixelAdmitted_iff s).mp admitted
  obtain ⟨pass, enc⟩ := inv.encPass phase
  refine inv.of_enc (by simp) ?_ ?_ (by simp [phase]) ?_ ?_ (enc.encodePixel p)
  · rw [encodePixel_out]; exact Memory.append_wf _ _ inv.outWf
  · rw [encodePixel_out]; exact Memory.append_dense _ _ inv.outDense
  · rw [encodePixel_err]; exact inv.err_none (by simp [phase])
  · exact pass.pixels (ps := [forceAlpha s.ch p]) (by simp) (by simp) (by simp) (by simpa using more) (by simp) (by simp)

theorem Inv.beginEncode {s : State} (inv : Inv s) {ch cs : Byte} (channels : legalChannels ch = true)
    (colorspace : legalColorspace cs = true) (w h : Dim) : Inv (s.beginEncode w h ch cs) :=
  inv.of_enc rfl (Memory.append_wf [] _ rfl) (Memory.append_dense [] _ rfl) rfl rfl
    (.start rfl rfl channels colorspace) (.beginEncode w h ch cs s)

theorem Inv.beginDecode {s : State} (inv : Inv s) {ch cs : Byte} (channels : legalChannels ch = true)
    (colorspace : legalColorspace cs = true) (header : 14 ≤ s.input.len) (w h : Dim) : Inv (s.beginDecode w h ch cs) :=
  inv.of_dec rfl rfl rfl rfl (.start rfl rfl channels colorspace)
    { produced := rfl, slotsFromPixels := rfl, prevFromPixels := rfl, afterHeader := Nat.le_refl 14, withinInput := header }

theorem Inv.afterChunk {s : State} (inv : Inv s) (admitted : s.chunkAdmitted = true) {i : Instr} {after : List Byte}
    (read : decodeChunk (s.input.window s.ipos longestChunk) = .item i after) : Inv (afterChunk i s) := by
  obtain ⟨phase, more⟩ := (chunkAdmitted_iff s).mp admitted
  obtain ⟨pass, dec⟩ := inv.decPass phase
  have room := chunkPixels_length (decodeChunk_item read).1 more
  have kept := dec.chunk inv.inputDense read
  rw [afterChunk_eq] at kept ⊢
  exact inv.of_dec rfl rfl phase (inv.err_none (by simp [phase])) (pass.pixels rfl rfl rfl room rfl rfl) kept

/-- Every way a command reaches a next state keeps the invariant. -/
theorem Inv.commandStep {s t : State} {c : Command} (inv : Inv s) (taken : CommandStep s c t) : Inv t := by
  cases taken with
  | reset =>
    exact inv.of_no_pass rfl inv.outWf inv.outDense (by simp [afterReset]) (by simp [afterReset]) (by simp [afterReset])
      (by simp [afterReset])
  | encStart _ _ _ channels colorspace =>
    refine inv.beginEncode ?_ ?_ _ _
    · obtain rfl | rfl := channels <;> rfl
    · obtain rfl | rfl := colorspace <;> rfl
  | encPixel admitted => exact inv.encodePixel admitted _
  | encEnd admitted =>
    have err := inv.err_none (s := s) (by simp [((encEndAdmitted_iff s).mp admitted).1])
    exact inv.of_no_pass rfl (Memory.append_wf _ _ inv.outWf) (Memory.append_dense _ _ inv.outDense)
      (by simp [afterTrailer]) (by simp [afterTrailer]) (by simp [afterTrailer, err]) (by simp [afterTrailer, err])
  | headerRaises _ kind =>
    refine inv.of_no_pass rfl inv.outWf inv.outDense (by simp) (by simp) ?_ ?_
    · obtain rfl | rfl := kind <;> simp
    · obtain rfl | rfl := kind <;> simp
  | headerAccepted _ read channels colorspace =>
    exact inv.beginDecode channels colorspace (header_within inv.inputDense read) _ _
  | chunkRaises =>
    exact inv.of_no_pass rfl inv.outWf inv.outDense (by simp) (by simp) (by simp) (by simp)
  | chunk admitted read => exact inv.afterChunk admitted read
  | decEnd admitted =>
    have err := inv.err_none (s := s) (by simp [((decEndAdmitted_iff s).mp admitted).1])
    rw [afterEnd]
    split <;>
      exact inv.of_no_pass rfl inv.outWf inv.outDense (by simp) (by simp) (by simp [err]) (by simp [err])

/-- The invariant says nothing of the host's moves. -/
theorem Inv.moves {s : State} (inv : Inv s) (moves : List HostMove) : Inv { s with moves := moves } := by
  obtain ⟨inputWf, inputDense, outWf, outDense, errorPhase, noInternal, encPass, decPass⟩ := inv
  refine ⟨inputWf, inputDense, outWf, outDense, errorPhase, noInternal, fun phase => ?_, fun phase => ?_⟩
  · obtain ⟨⟨_, _, _, _, _⟩, ⟨_, _, _, _, _, _, _⟩⟩ := encPass phase
    constructor <;> constructor <;> assumption
  · obtain ⟨⟨_, _, _, _, _⟩, ⟨_, _, _, _, _⟩⟩ := decPass phase
    constructor <;> constructor <;> assumption

/-- Outside a decode pass it says nothing of the input but its form (rule R41). -/
theorem Inv.present {s : State} (inv : Inv s) (noDec : s.phase ≠ .dec) (bs : List Byte) :
    Inv { s with input := Memory.ofBytes bs } where
  inputWf := Memory.ofBytes_wf bs
  inputDense := Memory.ofBytes_dense bs
  outWf := inv.outWf
  outDense := inv.outDense
  errorPhase := inv.errorPhase
  noInternal := inv.noInternal
  encPass := fun phase => by
    obtain ⟨⟨_, _, _, _, _⟩, ⟨_, _, _, _, _, _, _⟩⟩ := inv.encPass phase
    constructor <;> constructor <;> assumption
  decPass := fun phase => absurd phase noDec

/-- Settles O41: a case analysis of what a step can do. -/
theorem stepKeepsInvariant : Obligations.StepKeepsInvariant := by
  intro s t inv h
  obtain ⟨-, rfl⟩ | ⟨bs, rest, -, noDec, rfl⟩ | ⟨c, rest, -, taken⟩ := step_cases h
  · exact inv
  · exact (inv.moves rest).present noDec bs
  · exact (inv.moves rest).commandStep taken

/-- Settles O40: nothing has been presented or emitted, and no pass is in progress. -/
theorem invariantAtReset : Obligations.InvariantAtReset where
  inputWf := rfl
  inputDense := rfl
  outWf := rfl
  outDense := rfl
  errorPhase := by decide
  noInternal := by decide
  encPass := fun phase => by cases phase
  decPass := fun phase => by cases phase

end Sys2Proof.Machine
end

section
/-! Which registers a command may write (rule R36), read off the ways a command reaches a next state. -/

namespace Sys2Proof.Machine

/-- Settles O42: command by command, each clause's register is written by it as listed or is as it was. -/
theorem registersWrittenByListedCommands : Obligations.RegistersWrittenByListedCommands := by
  intro c s t h
  cases commandStep_of_next h with
  | reset => simp [afterReset]
  | encStart => simp [State.beginEncode]
  | encPixel => simp
  | encEnd => simp [afterTrailer]
  | headerRaises => simp
  | headerAccepted => simp
  | chunkRaises => simp
  | chunk => simp [afterChunk_eq]
  | decEnd =>
    rw [afterEnd]
    split <;> simp

end Sys2Proof.Machine
end

section
/-! An encode pass, one command after the other: what `commandsTo` makes of a state, and the induction over the pixels of an
Image (rule R166). -/

namespace Sys2Proof.Machine

/-- What a well-formed Image is (rule R12), condition by condition. -/
theorem Image.wf_iff (img : Image) : img.wf = true ↔
    legalChannels img.ch = true ∧ legalColorspace img.cs = true ∧ img.pix.length = img.w.toNat * img.h.toNat ∧
      (img.ch = 3 → ∀ p ∈ img.pix, p.a = 255) := by
  simp only [Image.wf, Bool.and_eq_true, Bool.or_eq_true, beq_iff_eq, bne_iff_ne, List.all_eq_true, and_assoc]
  tauto

/-- Where `ENC_START` of an Image has a step, it begins the pass of that Image. -/
theorem encStart_next {img : Image} {s e : State}
    (started : runCommand (.encStart img.w.toNat img.h.toNat img.ch.toNat img.cs.toNat) s = .next e) :
    e = s.beginEncode img.w img.h img.ch img.cs := by
  cases commandStep_of_next started
  simp only [BitVec.ofNat_toNat, BitVec.setWidth_eq]

/-- Before the first pixel. -/
theorem commandsTo_zero_next {img : Image} {s e : State} (run : runCommands (img.commandsTo 0) s = .next e) :
    e = s.beginEncode img.w img.h img.ch img.cs := by
  rw [Image.commandsTo, List.take_zero, List.map_nil, runCommands_singleton] at run
  exact encStart_next run

/-- One pixel more. -/
theorem commandsTo_succ_next {img : Image} {s e : State} {k : Nat} (more : k < img.pix.length)
    (run : runCommands (img.commandsTo (k + 1)) s = .next e) :
    ∃ e', runCommands (img.commandsTo k) s = .next e' ∧ e'.pixelAdmitted = true ∧
      e = e'.encodePixel (forceAlpha e'.ch img.pix[k]) := by
  rw [img.commandsTo_succ more, runCommands_append] at run
  obtain ⟨e', before, last⟩ := andThen_eq_next run
  rw [runCommands_singleton] at last
  cases commandStep_of_next last with
  | encPixel admitted => exact ⟨e', before, admitted, rfl⟩

/-- Induction over the pixels of an encode pass: what holds at its start and is kept by every pixel holds after any
number. -/
theorem encode_induction {img : Image} {s : State} {P : Nat → State → Prop}
    (start : P 0 (s.beginEncode img.w img.h img.ch img.cs))
    (pixel : ∀ (k : Nat) (e : State) (more : k < img.pix.length), runCommands (img.commandsTo k) s = .next e → P k e →
      P (k + 1) (e.encodePixel (forceAlpha e.ch img.pix[k]))) :
    ∀ (k : Nat) (e : State), k ≤ img.pix.length → runCommands (img.commandsTo k) s = .next e → P k e := by
  intro k
  induction k with
  | zero =>
    intro e _ run
    rw [commandsTo_zero_next run]
    exact start
  | succ k ih =>
    intro e more run
    obtain ⟨e', before, -, rfl⟩ := commandsTo_succ_next more run
    exact pixel k e' more before (ih e' (Nat.le_of_succ_le more) before)

/-- An encode pass of `img` after `k` pixels: cache and previous pixel are those of the pixels alone (rule R98). -/
structure EncodeAt (img : Image) (k : Nat) (e : State) : Prop where
  channels : e.ch = img.ch
  size : e.npix = img.w.toNat * img.h.toNat
  counted : e.pixcnt = k
  cache : e.cache = cacheAfter (img.pixelsTo k)
  prev : e.prev = prevAfter (img.pixelsTo k)
  inv : EncInv e

theorem EncodeAt.start (img : Image) (s : State) : EncodeAt img 0 (s.beginEncode img.w img.h img.ch img.cs) where
  channels := rfl
  size := rfl
  counted := rfl
  cache := rfl
  prev := rfl
  inv := .beginEncode _ _ _ _ s

theorem EncodeAt.pixel {img : Image} {k : Nat} {e : State} (before : EncodeAt img k e) (more : k < img.pix.length) :
    EncodeAt img (k + 1) (e.encodePixel (forceAlpha e.ch img.pix[k])) := by
  obtain ⟨channels, size, counted, cache, -, inv⟩ := before
  constructor
  case channels => simpa using channels
  case size => simpa using size
  case counted => simpa using counted
  case cache => rw [encodePixel_cache, img.pixelsTo_succ more, cacheAfter_append, cache, channels]
  case prev => rw [encodePixel_prev, img.pixelsTo_succ more, prevAfter_append, channels]
  case inv => exact inv.encodePixel img.pix[k]

/-- Every state of an encode pass stands so. -/
theorem encodeAt_of_commandsTo {img : Image} {s e : State} {k : Nat} (within : k ≤ img.pix.length)
    (run : runCommands (img.commandsTo k) s = .next e) : EncodeAt img k e :=
  encode_induction (.start img s) (fun _ _ more _ before => before.pixel more) k e within run

/-- A whole encode pass is that of its pixels and then the trailer (rule R166). -/
theorem encodeImage_next {img : Image} {s e : State} (run : encodeImage img s = .next e) :
    ∃ e', runCommands (img.commandsTo img.pix.length) s = .next e' ∧ e = afterTrailer e' := by
  rw [encodeImage, runCommands_append] at run
  obtain ⟨e', pixels, last⟩ := andThen_eq_next run
  rw [runCommands_singleton] at last
  cases commandStep_of_next last with
  | encEnd => exact ⟨e', pixels, rfl⟩

/-- The pixels up to `j` are the first `j` of those up to `k`. -/
theorem Image.take_pixelsTo (img : Image) {j k : Nat} (le : j ≤ k) : (img.pixelsTo k).take j = img.pixelsTo j := by
  rw [Image.pixelsTo, Image.pixelsTo, ← List.map_take, List.take_take, Nat.min_eq_left le]

/-- Pixels that the Image's begin with are as many of its first ones as they are. -/
theorem Image.eq_pixelsTo_of_prefix {img : Image} {ps : List Pixel} {k : Nat} (le : k ≤ img.pix.length)
    (pre : ps <+: img.pixelsTo k) : ps = img.pixelsTo ps.length := by
  have length := pre.length_le
  rw [img.pixelsTo_length le] at length
  conv_lhs => rw [List.prefix_iff_eq_take.mp pre, img.take_pixelsTo length]

end Sys2Proof.Machine
end

section
/-! A decode pass over a stream: where it stands, and what one round of the decode loop makes of it (rule R167). -/

namespace Sys2Proof.Machine

/-- The pixels produced are counted, and the cache and the previous pixel are theirs (rule R98). -/
structure FromPixels (d : State) : Prop where
  counted : d.pixcnt = d.pout.length
  cache : d.cache = cacheAfter d.pout
  prev : d.prev = prevAfter d.pout

/-- A decode pass of `n` pixels over the stream `bs` stands at offset `pos`. -/
structure DecodeAt (bs : List Byte) (n pos : Nat) (d : State) : Prop where
  phase : d.phase = .dec
  input : d.input = Memory.ofBytes bs
  size : d.npix = n
  position : d.ipos = pos
  pixels : FromPixels d

/-- A decode pass of the stream `bs` starts on `u`, and its loop reaches `d`. -/
def LoopReaches (bs : List Byte) (u d : State) : Prop :=
  ∃ d0 j, startDecode bs u = .next d0 ∧ FromPixels d0 ∧ decodeLoop j d0 = .next d

theorem FromPixels.beginDecode (w h : Dim) (ch cs : Byte) (s : State) : FromPixels (s.beginDecode w h ch cs) :=
  ⟨rfl, rfl, rfl⟩

theorem FromPixels.afterChunk {d : State} (pixels : FromPixels d) (i : Instr) : FromPixels (afterChunk i d) := by
  obtain ⟨counted, cache, prev⟩ := pixels
  rw [afterChunk_eq]
  constructor
  case counted => simp [counted]
  case cache => simp only [cacheAfter_append_list, cache]
  case prev => simp only [prevAfter_append_list, prev]

/-! ## The loop -/

/-- A round that finds a chunk executes it (rule R101). -/
theorem cmdDecChunk_of_read {d : State} {i : Instr} {after : List Byte} (admitted : d.chunkAdmitted = true)
    (read : decodeChunk (d.input.window d.ipos longestChunk) = .item i after) : cmdDecChunk d = .next (afterChunk i d) := by
  obtain ⟨short, -⟩ | ⟨_, _, found, done⟩ := cmdDecChunk_cases admitted
  · cases short.symm.trans read
  · cases found.symm.trans read; exact done

/-- Induction over the rounds of the decode loop: what every `DEC_CHUNK` keeps, the loop keeps. -/
theorem decodeLoop_induction {P : State → Prop} (raise : ∀ d, P d → P (d.raise .truncated))
    (chunk : ∀ i d, P d → P (afterChunk i d)) {j : Nat} {d t : State} (holds : P d) (loop : decodeLoop j d = .next t) :
    P t := by
  induction j generalizing d with
  | zero => cases loop; exact holds
  | succ j ih =>
    rw [decodeLoop] at loop
    split at loop
    next admitted =>
      obtain ⟨d', round, rounds⟩ := andThen_eq_next loop
      obtain ⟨-, raised⟩ | ⟨i, _, -, done⟩ := cmdDecChunk_cases admitted
      · cases raised.symm.trans round; exact ih (raise d holds) rounds
      · cases done.symm.trans round; exact ih (chunk i d holds) rounds
    next => cases loop; exact holds

theorem decodeLoop_fromPixels {j : Nat} {d t : State} (pixels : FromPixels d) (loop : decodeLoop j d = .next t) :
    FromPixels t :=
  decodeLoop_induction (P := FromPixels) (fun _ pixels => ⟨pixels.counted, pixels.cache, pixels.prev⟩)
    (fun i _ pixels => pixels.afterChunk i) pixels loop

/-- Pixels that have been produced stay (rule R46). -/
theorem decodeLoop_pout_prefix {j : Nat} {d t : State} (loop : decodeLoop j d = .next t) : d.pout <+: t.pout := by
  refine decodeLoop_induction (P := fun t => d.pout <+: t.pout) (fun _ pre => pre) (fun i t pre => ?_)
    (List.prefix_refl _) loop
  rw [afterChunk_eq]
  exact pre.trans (List.prefix_append _ _)

/-- Where the loop ends, it ends from every state on the way. -/
theorem decodeLoop_to_end {j k : Nat} {d0 d f : State} (loop : decodeLoop j d0 = .next d)
    (whole : decodeLoop k d0 = .next f) (ended : ¬ f.chunkAdmitted = true) : ∃ m, decodeLoop m d = .next f := by
  obtain le | le := Nat.le_total j k
  · refine ⟨k - j, ?_⟩
    rw [← Nat.add_sub_cancel' le, decodeLoop_add, loop] at whole
    exact whole
  · rw [← Nat.add_sub_cancel' le, decodeLoop_add, whole, andThen_next, decodeLoop_of_not ended] at loop
    cases loop
    exact ⟨0, rfl⟩

/-- One round more. -/
theorem LoopReaches.round {bs : List Byte} {u d d' : State} (reached : LoopReaches bs u d)
    (admitted : d.chunkAdmitted = true) (round : cmdDecChunk d = .next d') : LoopReaches bs u d' := by
  obtain ⟨d0, j, start, pixels, loop⟩ := reached
  refine ⟨d0, j + 1, start, pixels, ?_⟩
  rw [decodeLoop_add, loop, andThen_next, decodeLoop, if_pos admitted, round]
  rfl

/-! ## The start -/

/-- A decode pass starts only where no pass is in progress. -/
theorem startAdmitted_of_startDecode {bs : List Byte} {u d0 : State} (start : startDecode bs u = .next d0) :
    u.startAdmitted = true := by
  obtain ⟨u', presented, started⟩ := andThen_eq_next start
  rw [presentInput] at presented
  split at presented
  · cases presented
  · cases presented; exact (require_next started).1

/-- An item that stands at `pos` of a stream is found there, with what follows it as far as is looked. -/
theorem window_item {m : Memory} {i : Instr} {after : List Byte} {pos n : Nat} (dense : Memory.dense m = true)
    (stands : (Memory.bytes m).drop pos = encode i ++ after) (long : i.length ≤ n) :
    Memory.window m pos n = encode i ++ after.take (n - i.length) := by
  rw [Memory.window_dense dense, stands, List.take_append, Laws.encode_length, List.take_of_length_le]
  rw [Laws.encode_length]
  exact long

/-- A legal header with the right magic is accepted (rules R158, R159). -/
theorem cmdDecStart_header {s : State} {w h : Dim} {ch cs : Byte} {after : List Byte} (admitted : s.startAdmitted = true)
    (channels : legalChannels ch = true) (colorspace : legalColorspace cs = true)
    (read : decodeHeader (s.input.window 0 Config.headerLen) = .item (.header s.cfg.magic w h ch cs) after) :
    cmdDecStart s = .next (s.beginDecode w h ch cs) := by
  have accepted : exec (.header s.cfg.magic w h ch cs) s = .next (s.beginDecode w h ch cs) := by
    rw [exec, execHeader, require_of admitted]
    simp [channels, colorspace]
  rw [cmdDecStart, require_of admitted]
  simp only [decode, read, accepted]

/-- A stream that begins with a legal header begins a decode pass: it stands after the header, without a pixel. -/
theorem startDecode_header {u : State} (admitted : u.startAdmitted = true) {ch cs : Byte}
    (channels : legalChannels ch = true) (colorspace : legalColorspace cs = true) (w h : Dim) {bs rest : List Byte}
    (header : bs = encode (.header u.cfg.magic w h ch cs) ++ rest) :
    ∃ d, startDecode bs u = .next d ∧ DecodeAt bs (w.toNat * h.toNat) 14 d ∧ d.pout = [] := by
  refine ⟨{ u with input := Memory.ofBytes bs }.beginDecode w h ch cs, ?_,
    ⟨rfl, rfl, rfl, rfl, .beginDecode w h ch cs _⟩, rfl⟩
  have noDec : u.phase ≠ .dec := by
    rcases (startAdmitted_iff u).mp admitted with h | h | h <;> simp [h]
  rw [startDecode, presentInput, if_neg noDec, andThen_next]
  refine cmdDecStart_header (after := []) admitted channels colorspace ?_
  rw [window_item (Memory.ofBytes_dense bs) (by rw [Memory.bytes_ofBytes, header, List.drop_zero]) (Nat.le_refl 14)]
  exact decodeHeader_encode _ w h ch cs _

/-! ## A chunk -/

/-- A round on a stream that has a well-formed chunk next executes it (rules R100 to R102). -/
theorem DecodeAt.chunk {bs after : List Byte} {n pos : Nat} {u d : State} {i : Instr} (stands : DecodeAt bs n pos d)
    (reached : LoopReaches bs u d) (more : d.pout.length < n) (wf : i.wf = true) (chunk : i.position = .chunk)
    (next : bs.drop pos = encode i ++ after) :
    LoopReaches bs u (afterChunk i d) ∧ DecodeAt bs n (pos + i.length) (afterChunk i d) := by
  obtain ⟨phase, input, size, position, pixels⟩ := stands
  have admitted : d.chunkAdmitted = true := by simp [phase, size, pixels.counted, more]
  have read : decodeChunk (d.input.window d.ipos longestChunk) = .item i (after.take (longestChunk - i.length)) := by
    rw [input, position, window_item (n := longestChunk) (Memory.ofBytes_dense bs)
      (by rw [Memory.bytes_ofBytes, next]) (chunk_length_le chunk)]
    exact decodeChunk_encode wf chunk _
  constructor
  · exact reached.round admitted (cmdDecChunk_of_read admitted read)
  · have pixels := pixels.afterChunk i
    rw [afterChunk_eq] at pixels ⊢
    exact ⟨phase, input, size, congrArg (· + i.length) position, pixels⟩

end Sys2Proof.Machine
end

section
/-! The decoder behind the encoder: what has been emitted after some pixels decodes to all of them but the pending run, which
repeats the previous pixel (rules R33, R94, R119). -/

namespace Sys2Proof.Machine

/-- The decode pass of `bs` on `u`, for `n` pixels, gets to offset `pos` with all of the pixels `ps` but the last `pending`,
which repeat the previous pixel. -/
def Lags (bs : List Byte) (u : State) (n pos : Nat) (ps : List Pixel) (pending : Nat) : Prop :=
  ∃ d, LoopReaches bs u d ∧ DecodeAt bs n pos d ∧ d.pout ++ List.replicate pending d.prev = ps

/-- A pending run repeats the last pixel there is. -/
theorem FromPixels.prev_of_pending {d : State} (pixels : FromPixels d) {pending : Nat} {ps : List Pixel}
    (lag : d.pout ++ List.replicate pending d.prev = ps) : d.prev = prevAfter ps := by
  rw [← lag, prevAfter_append_list, ← pixels.prev]
  cases pending with
  | zero => rfl
  | succ n => simp [List.replicate_succ']

theorem drop_past {α : Type} {l a b : List α} {pos : Nat} (next : l.drop pos = a ++ b) : l.drop (pos + a.length) = b := by
  rw [← List.drop_drop, next, List.drop_left]

section
variable {bs after : List Byte} {u : State} {n pos pending : Nat} {ps : List Pixel}

/-- One pixel more that repeats the previous one makes the run longer. -/
theorem Lags.count (lags : Lags bs u n pos ps pending) {p : Pixel} (repeats : p = prevAfter ps) :
    Lags bs u n pos (ps ++ [p]) (pending + 1) := by
  obtain ⟨d, reached, stands, lag⟩ := lags
  refine ⟨d, reached, stands, ?_⟩
  rw [List.replicate_succ', ← List.append_assoc, lag, repeats, stands.pixels.prev_of_pending lag]

/-- Where the pending run comes next in the stream, it is decoded. -/
theorem Lags.flush (lags : Lags bs u n pos ps pending) (pends : 0 < pending) (bound : pending ≤ 62)
    (room : ps.length ≤ n) (next : bs.drop pos = encode (.run pending) ++ after) : Lags bs u n (pos + 1) ps 0 := by
  obtain ⟨d, reached, stands, lag⟩ := lags
  have length : d.pout.length + pending = ps.length := by simpa using congrArg List.length lag
  have wf : (Instr.run pending).wf = true := by simp [Instr.wf, bound]; omega
  obtain ⟨reached', stands'⟩ := stands.chunk reached (by omega) wf rfl next
  have produced : chunkPixels (.run pending) d = List.replicate pending d.prev :=
    chunkPixels_run (by rw [stands.pixels.counted, stands.size]; omega)
  refine ⟨_, reached', stands', ?_⟩
  rw [afterChunk_eq, produced]
  simpa using lag

/-- Where a chunk comes next that the encoder chose for a pixel, it is decoded to that pixel. -/
theorem Lags.chunk (lags : Lags bs u n pos ps 0) {e : State} (cache : e.cache = cacheAfter ps) (prev : e.prev = prevAfter ps)
    (more : ps.length < n) {p : Pixel} (next : bs.drop pos = encode (e.chooseChunk p) ++ after) :
    Lags bs u n (pos + (encode (e.chooseChunk p)).length) (ps ++ [p]) 0 := by
  obtain ⟨d, reached, stands, lag⟩ := lags
  rw [List.replicate_zero, List.append_nil] at lag
  subst lag
  obtain ⟨wf, chunk⟩ := chooseChunk_wf p e
  obtain ⟨reached', stands'⟩ := stands.chunk reached more wf chunk next
  have produced : chunkPixels (e.chooseChunk p) d = [p] :=
    chunkPixels_chooseChunk (stands.pixels.cache.trans cache.symm) (stands.pixels.prev.trans prev.symm) p
  rw [Laws.encode_length]
  refine ⟨_, reached', stands', ?_⟩
  rw [afterChunk_eq, produced]
  exact List.append_nil _

/-- Where the bytes of one more pixel come next, they are decoded, and what is pending then is the encoder's run. -/
theorem Lags.pixel {e : State} (lags : Lags bs u n pos ps e.run) (cache : e.cache = cacheAfter ps)
    (prev : e.prev = prevAfter ps) (bound : e.run ≤ 61) (more : ps.length < n) {p : Pixel}
    (next : bs.drop pos = pixelBytes p e ++ after) :
    Lags bs u n (pos + (pixelBytes p e).length) (ps ++ [p]) (runAfter p e) := by
  unfold pixelBytes at next ⊢
  unfold runAfter
  by_cases repeats : p = e.prev
  · have counted := lags.count (repeats.trans prev)
    rw [if_pos repeats] at next ⊢
    rw [if_pos repeats]
    split at next
    case isTrue ends =>
      rw [if_pos ends, if_pos ends]
      exact counted.flush (Nat.succ_pos _) (Nat.succ_le_succ bound) (by simpa using more) next
    case isFalse goesOn =>
      rw [if_neg goesOn, if_neg goesOn]
      exact counted
  · rw [if_neg repeats] at next ⊢
    rw [if_neg repeats]
    rw [List.append_assoc] at next
    have rest := drop_past next
    rw [List.length_append, ← Nat.add_assoc]
    refine Lags.chunk ?_ cache prev more rest
    split at next
    case isTrue pends =>
      rw [if_pos pends]
      exact lags.flush pends (by omega) more.le next
    case isFalse nothing =>
      rw [if_neg nothing]
      rwa [Nat.eq_zero_of_not_pos nothing] at lags

end

/-- What has been emitted after `k` pixels decodes to them but for the pending run, whatever bytes follow. -/
theorem emitted_lags {img : Image} {s u : State} (wf : img.wf = true) (admitted : u.startAdmitted = true)
    (magic : u.cfg.magic = s.cfg.magic) {k : Nat} {e : State} (within : k ≤ img.pix.length)
    (run : runCommands (img.commandsTo k) s = .next e) (rest : List Byte) :
    Lags (e.out.bytes ++ rest) u img.pix.length e.out.bytes.length (img.pixelsTo k) e.run := by
  obtain ⟨channels, colorspace, size, -⟩ := (Image.wf_iff img).mp wf
  revert rest
  refine encode_induction (P := fun k e => ∀ rest,
    Lags (e.out.bytes ++ rest) u img.pix.length e.out.bytes.length (img.pixelsTo k) e.run) ?_ ?_ k e within run
  · intro rest
    have bytes : (s.beginEncode img.w img.h img.ch img.cs).out.bytes =
        encode (.header u.cfg.magic img.w img.h img.ch img.cs) := by
      rw [magic]; exact Memory.bytes_append [] _
    rw [bytes, size]
    obtain ⟨d, start, stands, none⟩ := startDecode_header admitted channels colorspace img.w img.h (rest := rest) rfl
    exact ⟨d, ⟨d, 0, start, stands.pixels, rfl⟩, stands, by simp [none, State.beginEncode, Image.pixelsTo]⟩
  · intro k e more before lags rest
    have now := encodeAt_of_commandsTo more.le before
    rw [now.channels, encodePixel_out, encodePixel_run, Memory.bytes_append, List.append_assoc, List.length_append,
      img.pixelsTo_succ more]
    refine (lags _).pixel now.cache now.prev now.inv.runBound ?_ List.drop_left
    rwa [img.pixelsTo_length more.le]

/-- Settles O36: the induction over the pixels, with nothing after what has been emitted. -/
theorem outputLagsByRun : Obligations.OutputLagsByRun := by
  intro img s e u k wf within run phase magic
  obtain ⟨d, ⟨d0, j, start, -, loop⟩, stands, lag⟩ :=
    emitted_lags wf ((startAdmitted_iff u).mpr phase) magic within run []
  rw [List.append_nil] at start
  refine ⟨d0, d, j, start, loop, stands.phase, stands.position, ?_⟩
  have produced : d.pout <+: img.pixelsTo k := ⟨_, lag⟩
  have length : d.pout.length + e.run = k := by simpa [img.pixelsTo_length within] using congrArg List.length lag
  rw [img.eq_pixelsTo_of_prefix within produced, ← length, Nat.add_sub_cancel]

end Sys2Proof.Machine
end

section
/-! The lock step: whatever the decode loop reaches on an encoded stream, its pixels are the first pixels of the Image, and
so both sides' cache and previous pixel are those of the same pixels (rules R26, R98). -/

namespace Sys2Proof.Machine

/-- The decode loop of an encoded stream starts, and ends with all pixels of the Image before the trailer. -/
theorem encoded_loop_ends {img : Image} {s e u d0 : State} (wf : img.wf = true) (encoded : encodeImage img s = .next e)
    (magic : u.cfg.magic = s.cfg.magic) (start : startDecode e.out.bytes u = .next d0) :
    FromPixels d0 ∧ ∃ j f, decodeLoop j d0 = .next f ∧ f.phase = .dec ∧ f.pixcnt = f.npix ∧
      f.pout = img.pixelsTo img.pix.length := by
  obtain ⟨e', run, rfl⟩ := encodeImage_next encoded
  have whole := encodeAt_of_commandsTo le_rfl run
  have size : img.pix.length = e'.npix := by rw [whole.size, ((Image.wf_iff img).mp wf).2.2.1]
  have flushed : e'.run = 0 := whole.inv.runFlushed (whole.counted.trans size)
  obtain ⟨f, ⟨d0', j, start', pixels, loop⟩, stands, lag⟩ :=
    emitted_lags wf (startAdmitted_of_startDecode start) magic le_rfl run (encode .endMarker)
  have bytes : (afterTrailer e').out.bytes = e'.out.bytes ++ encode .endMarker := Memory.bytes_append _ _
  rw [bytes] at start
  cases start.symm.trans start'
  have produced : f.pout = img.pixelsTo img.pix.length := by simpa [flushed] using lag
  refine ⟨pixels, j, f, loop, stands.phase, ?_, produced⟩
  rw [stands.size, stands.pixels.counted, produced, img.pixelsTo_length le_rfl]

/-- A chunk that comes before the loop's end produces pixels that are there at the end. -/
theorem chunkPixels_prefix {i : Instr} {after : List Byte} {m : Nat} {d f : State} (loop : decodeLoop m d = .next f)
    (phase : f.phase = .dec) (full : f.pixcnt = f.npix) (more : d.pixcnt < d.npix)
    (read : decode .chunk (d.input.window d.ipos 5) = .item i after) : d.pout ++ chunkPixels i d <+: f.pout := by
  have notEnd : d ≠ f := by rintro rfl; omega
  have admitted : d.chunkAdmitted = true := by
    by_contra refused
    rw [decodeLoop_of_not refused] at loop
    exact notEnd (Host.Outcome.next.inj loop)
  cases m with
  | zero => exact absurd (Host.Outcome.next.inj loop) notEnd
  | succ m =>
    rw [decodeLoop, if_pos admitted, cmdDecChunk_of_read admitted read, andThen_next] at loop
    have kept := decodeLoop_pout_prefix loop
    rwa [afterChunk_eq] at kept

/-- After as many pixels as some that the Image's begin with, the encoder's cache and previous pixel are theirs. -/
theorem encoder_agrees_on_prefix {img : Image} {s e : State} {ps : List Pixel} (pre : ps <+: img.pixelsTo img.pix.length)
    (run : runCommands (img.commandsTo ps.length) s = .next e) : e.cache = cacheAfter ps ∧ e.prev = prevAfter ps := by
  have within : ps.length ≤ img.pix.length := by
    simpa [img.pixelsTo_length le_rfl] using pre.length_le
  have stands := encodeAt_of_commandsTo within run
  have same := Image.eq_pixelsTo_of_prefix le_rfl pre
  exact ⟨by rw [stands.cache, ← same], by rw [stands.prev, ← same]⟩

/-- Settles O34: the decoder's pixels, at the end of a chunk and inside one, are those its loop's last pixels begin with. -/
theorem lockStep : Obligations.LockStep := by
  intro img s e u d0 wf encoded magic start j d loop
  obtain ⟨begun, k, f, whole, phase, full, produced⟩ := encoded_loop_ends wf encoded magic start
  obtain ⟨counted, cache, prev⟩ := decodeLoop_fromPixels begun loop
  obtain ⟨rounds, toEnd⟩ := decodeLoop_to_end loop whole (by simp [full])
  rw [counted, cache, prev]
  constructor
  · intro ek run
    exact encoder_agrees_on_prefix (produced ▸ decodeLoop_pout_prefix toEnd) run
  · intro i after more read m le ek run
    have pre : d.pout ++ (chunkPixels i d).take m <+: img.pixelsTo img.pix.length := by
      refine List.IsPrefix.trans ?_ (produced ▸ chunkPixels_prefix toEnd phase full (counted ▸ more) read)
      exact (List.prefix_append_right_inj _).mpr (List.take_prefix _ _)
    have length : (d.pout ++ (chunkPixels i d).take m).length = d.pout.length + m := by
      rw [List.length_append, List.length_take, Nat.min_eq_left le]
    rw [← length] at run
    rw [commitAll_eq, cache, prev, ← cacheAfter_append_list, ← prevAfter_append_list]
    exact encoder_agrees_on_prefix pre run

end Sys2Proof.Machine
end

section
/-! The streams and the host's list of moves under a step (rules R41, R44, R52): what has been emitted stays, the input is
the host's, and steps through commands are those commands run in order. -/

namespace Sys2Proof.Machine

/-- `s` with another list of moves. -/
def State.withMoves (moves : List HostMove) (s : State) : State := { s with moves := moves }

section
variable (moves : List HostMove) (s : State)
@[simp] theorem withMoves_input : (s.withMoves moves).input = s.input := rfl
@[simp] theorem withMoves_ipos : (s.withMoves moves).ipos = s.ipos := rfl
end

/-! ## A step, by the host's next move -/

theorem step_issue {s : State} {c : Command} {rest : List HostMove} (next : s.moves = .issue c :: rest) :
    step s = runCommand c (s.withMoves rest) := by
  rw [step, runStep, next]
  rfl

theorem step_present {s : State} {bs : List Byte} {rest : List HostMove} (next : s.moves = .present bs :: rest) :
    step s = presentInput bs (s.withMoves rest) := by
  rw [step, runStep, next]
  rfl

/-! ## The output (rule R44) -/

/-- Appending changes no byte that is there, in a stream of any form. -/
theorem Memory.read_append_of_read {m : Memory} {a : Nat} {b : Byte} (there : Memory.read m a = some b) (bs : List Byte) :
    Memory.read (Memory.append m bs) a = some b := by
  rw [Memory.append, Memory.read_append_cells, there]

/-- A command appends bytes to `OUT`, none or more, but that `ENC_START` begins it anew. -/
theorem CommandStep.out_appends {s t : State} {c : Command} (taken : CommandStep s c t) :
    (∃ w h ch cs, c = .encStart w h ch cs) ∨ ∃ bs, t.out = s.out.append bs := by
  have unchanged : ∀ {u : State}, u.out = s.out → ∃ bs, u.out = s.out.append bs := fun same =>
    ⟨[], by rw [same, Memory.append_nil]⟩
  cases taken with
  | encStart => exact .inl ⟨_, _, _, _, rfl⟩
  | encPixel => exact .inr ⟨_, encodePixel_out _ _⟩
  | encEnd => exact .inr ⟨encode .endMarker, rfl⟩
  | reset => exact .inr (unchanged rfl)
  | headerRaises => exact .inr (unchanged rfl)
  | headerAccepted => exact .inr (unchanged rfl)
  | chunkRaises => exact .inr (unchanged rfl)
  | chunk => exact .inr (unchanged (by rw [afterChunk_eq]))
  | decEnd => exact .inr (unchanged (by rw [afterEnd]; split <;> rfl))

/-- Settles O43: every step but an ENC_START leaves `OUT` as it is or appends to it. -/
theorem outputNeverRewritten : Obligations.OutputNeverRewritten := by
  intro s t h
  obtain ⟨-, rfl⟩ | ⟨bs, rest, -, -, rfl⟩ | ⟨c, rest, next, taken⟩ := step_cases h
  · exact .inr fun _ _ there => there
  · exact .inr fun _ _ there => there
  · obtain ⟨w, hgt, ch, cs, rfl⟩ | ⟨bs, appended⟩ := taken.out_appends
    · exact .inl ⟨w, hgt, ch, cs, rest, next⟩
    · exact .inr fun _ _ there => appended ▸ Memory.read_append_of_read there bs

/-! ## The input (rules R41, R55) -/

/-- No command writes `IN`. -/
theorem runCommand_input {c : Command} {s t : State} (h : runCommand c s = .next t) : t.input = s.input := by
  obtain ⟨-, -, -, -, -, -, -, -, -, input, -, -⟩ := registersWrittenByListedCommands c s t h
  exact input

/-- A step leaves `IN` as it is, or the host presents another one outside a decode pass. -/
theorem step_input {s t : State} (h : step s = .next t) :
    t.input = s.input ∨ s.phase ≠ .dec ∧ ∃ bs rest, s.moves = .present bs :: rest := by
  obtain ⟨-, rfl⟩ | ⟨bs, rest, next, noDec, -⟩ | ⟨c, rest, next, -⟩ := step_cases h
  · exact .inl rfl
  · exact .inr ⟨noDec, bs, rest, next⟩
  · have kept := runCommand_input ((step_issue next).symm.trans h)
    exact .inl kept

/-- Settles O44: a step writes `IN` only where the host presents one, and presenting is refused in a decode pass alone. -/
theorem inputStableInDecodePass : Obligations.InputStableInDecodePass := by
  constructor
  · intro s t h
    obtain same | ⟨noDec, presents⟩ := step_input h
    · exact ⟨fun _ => same, fun changed => absurd same changed⟩
    · exact ⟨fun dec => absurd dec noDec, fun _ => presents⟩
  · intro s bs rest next
    rw [step_present next]
    refine ⟨Iff.rfl, fun noDec => ⟨_, if_neg noDec, Memory.read_ofBytes bs, Memory.bytes_ofBytes bs,
      Memory.len_ofBytes bs, Memory.ofBytes_wf bs, Memory.ofBytes_dense bs, rfl⟩, fun refused => ?_⟩
    exact if_pos (not_not.mp refused)

/-! ## The list of moves (rules R52, R150) -/

/-- What `f` does neither reads the list of moves nor writes it: with another one it answers the same, but for that list. -/
def IgnoresMoves (f : State → Result) : Prop :=
  ∀ (s : State) (moves : List HostMove), f (s.withMoves moves) = andThen (f s) fun t => .next (t.withMoves moves)

theorem IgnoresMoves.require {f : State → Result} (ignores : IgnoresMoves f) {a : State → Bool}
    (reads : ∀ (s : State) (moves : List HostMove), a (s.withMoves moves) = a s) (c : Command) :
    IgnoresMoves fun s => require (a s) c (f s) := by
  intro s moves
  simp only [reads]
  by_cases admitted : a s = true
  · rw [require_of admitted, require_of admitted]
    exact ignores s moves
  · rw [require_not admitted, require_not admitted]
    rfl

theorem IgnoresMoves.ite {f g : State → Result} (holds : IgnoresMoves f) (fails : IgnoresMoves g) {p : State → Prop}
    [∀ s, Decidable (p s)] (reads : ∀ (s : State) (moves : List HostMove), p (s.withMoves moves) ↔ p s) :
    IgnoresMoves fun s => if p s then f s else g s := by
  intro s moves
  simp only [reads]
  split
  · exact holds s moves
  · exact fails s moves

theorem flagOverrun_withMoves (asked remaining : Nat) (s : State) (moves : List HostMove) :
    (s.withMoves moves).flagOverrun asked remaining = (s.flagOverrun asked remaining).withMoves moves := by
  unfold State.flagOverrun
  split <;> rfl

theorem beforeCommit_withMoves (i : Instr) (s : State) (moves : List HostMove) :
    beforeCommit i (s.withMoves moves) = (beforeCommit i s).withMoves moves := by
  cases i with
  | run n => exact flagOverrun_withMoves _ _ s moves
  | _ => rfl

theorem afterChunk_withMoves (i : Instr) (s : State) (moves : List HostMove) :
    afterChunk i (s.withMoves moves) = (afterChunk i s).withMoves moves := by
  have produced : chunkPixels i (s.withMoves moves) = chunkPixels i s := by cases i <;> rfl
  rw [afterChunk_eq, afterChunk_eq, produced, beforeCommit_withMoves]
  rfl

theorem exec_chunk_ignoresMoves {i : Instr} (chunk : i.position = .chunk) : IgnoresMoves (exec i) := by
  intro s moves
  by_cases admitted : s.chunkAdmitted = true
  · have admitted' : (s.withMoves moves).chunkAdmitted = true := admitted
    rw [exec_chunk chunk admitted, exec_chunk chunk admitted']
    exact congrArg _ (afterChunk_withMoves i s moves)
  · have refused : ¬ (s.withMoves moves).chunkAdmitted = true := admitted
    rw [exec_chunk_refused chunk admitted, exec_chunk_refused chunk refused]
    rfl

theorem exec_header_ignoresMoves (m : Magic) (w h : Dim) (ch cs : Byte) : IgnoresMoves (exec (.header m w h ch cs)) := by
  have raises : IgnoresMoves fun s => .next (s.raiseAtStart .format) := fun _ _ => rfl
  have begins : IgnoresMoves fun s => .next (s.beginDecode w h ch cs) := fun _ _ => rfl
  have fields := raises.ite (raises.ite begins (p := fun _ => legalColorspace cs = false) fun _ _ => Iff.rfl)
    (p := fun _ => legalChannels ch = false) fun _ _ => Iff.rfl
  exact (raises.ite fields (p := fun s => m ≠ s.cfg.magic) fun _ _ => Iff.rfl).require (fun _ _ => rfl) .decStart

theorem afterEnd_withMoves (s : State) (moves : List HostMove) :
    afterEnd (s.withMoves moves) = (afterEnd s).withMoves moves := by
  have checked := apply_ite (State.withMoves moves) (s.input.window s.ipos Config.trailerLen = Config.trailer) s s.setEndBad
  exact congrArg (fun u => { u.advance (s.input.window s.ipos Config.trailerLen).length with phase := .done }) checked.symm

theorem exec_end_ignoresMoves : IgnoresMoves (exec .endMarker) := by
  have ends : IgnoresMoves fun s => .next (afterEnd s) := fun s moves => congrArg _ (afterEnd_withMoves s moves)
  exact ends.require (fun _ _ => rfl) .decEnd

theorem exec_ignoresMoves (i : Instr) : IgnoresMoves (exec i) := by
  cases i with
  | header m w h ch cs => exact exec_header_ignoresMoves m w h ch cs
  | endMarker => exact exec_end_ignoresMoves
  | _ => exact exec_chunk_ignoresMoves rfl

/-- The host's commands do not touch what the host will do next. -/
theorem runCommand_ignoresMoves (c : Command) : IgnoresMoves (runCommand c) := by
  cases c with
  | reset => exact fun _ _ => rfl
  | encStart w h ch cs =>
    refine IgnoresMoves.require (fun s moves => ?_) (fun _ _ => rfl) _
    split <;> rfl
  | encPixel p =>
    refine IgnoresMoves.require (fun s moves => ?_) (fun _ _ => rfl) _
    rw [encodePixel_eq, encodePixel_eq]
    rfl
  | encEnd => exact IgnoresMoves.require (fun _ _ => rfl) (fun _ _ => rfl) _
  | decStart =>
    refine IgnoresMoves.require (fun s moves => ?_) (fun _ _ => rfl) _
    simp only [withMoves_input]
    split
    · rfl
    · exact exec_ignoresMoves _ s moves
  | decChunk =>
    refine IgnoresMoves.require (fun s moves => ?_) (fun _ _ => rfl) _
    simp only [withMoves_input, withMoves_ipos]
    split
    · rfl
    · exact exec_ignoresMoves _ s moves
  | decEnd => exact exec_end_ignoresMoves

theorem runSteps_succ (n : Nat) (s : State) : runSteps (n + 1) s = andThen (step s) (runSteps n) := rfl

/-- An induction over the commands; the answer is the same where it is a refusal, too. -/
theorem runSteps_commands (cs : List Command) (rest : List HostMove) (s : State)
    (next : s.moves = cs.map .issue ++ rest) : runSteps cs.length s = runCommands cs (s.withMoves rest) := by
  induction cs generalizing s with
  | nil =>
    subst next
    rfl
  | cons c cs ih =>
    calc runSteps (cs.length + 1) s
        = andThen (runCommand c (s.withMoves (cs.map .issue ++ rest))) (runSteps cs.length) := by
          rw [runSteps_succ, step_issue next]
          rfl
      _ = andThen (runCommand c s) fun t => runSteps cs.length (t.withMoves (cs.map .issue ++ rest)) := by
          rw [runCommand_ignoresMoves, andThen_assoc]
          rfl
      _ = andThen (runCommand c s) fun t => runCommands cs (t.withMoves rest) := by
          congr 1
          funext t
          exact ih _ rfl
      _ = runCommands (c :: cs) (s.withMoves rest) := by
          rw [runCommands, runCommand_ignoresMoves, andThen_assoc]
          rfl

/-- Settles O50: the steps and the commands answer the same. -/
theorem stepsRunCommandsInOrder : Obligations.StepsRunCommandsInOrder := by
  intro cs rest s t next
  rw [runSteps_commands cs rest s next]
  rfl

end Sys2Proof.Machine
end

section
/-! Encoding (spec/30_encoding.md): the first byte's ranges, the length it fixes, and that reading an item and writing it are
inverse in both directions. -/

namespace Sys2Proof

/-! ## The first byte (rules R64 to R66) -/

/-- The values of the first byte that select an operation, both ends included (rule R65). -/
def ChunkOp.firstBytes : ChunkOp → Nat × Nat
  | .index => (0, 63)
  | .diff => (64, 127)
  | .luma => (128, 191)
  | .run => (192, 253)
  | .rgb => (254, 254)
  | .rgba => (255, 255)

/-- Each byte is in the range of one operation, the one it selects. -/
theorem classify_eq_iff (b : Byte) (op : ChunkOp) :
    classify b = op ↔ op.firstBytes.1 ≤ b.toNat ∧ b.toNat ≤ op.firstBytes.2 := by
  have bound := b.isLt
  rw [classify_eq]
  cases op <;> simp only [ChunkOp.firstBytes] <;> split_ifs <;> simp only [true_iff, false_iff] <;> omega

/-- The top two bits as a number. -/
theorem topBits_toNat (b : Byte) : (b.extractLsb 7 6).toNat = b.toNat / 64 := by
  have bound := b.isLt
  simp only [BitVec.extractLsb_toNat, Nat.shiftRight_eq_div_pow]
  omega

theorem decodeChunk_short {b0 : Byte} {bs : List Byte} (short : bs.length + 1 < (classify b0).length) :
    decodeChunk (b0 :: bs) = .rejected .shortRead := by
  simp only [decodeChunk]
  cases op : classify b0 <;> simp only [op, ChunkOp.length] at short ⊢
  case index | diff | run => omega
  case luma =>
    match bs, short with
    | [], _ => rfl
    | _ :: _, short => simp only [List.length_cons] at short; omega
  case rgb =>
    match bs, short with
    | [], _ | [_], _ | [_, _], _ => rfl
    | _ :: _ :: _ :: _, short => simp only [List.length_cons] at short; omega
  case rgba =>
    match bs, short with
    | [], _ | [_], _ | [_, _], _ | [_, _, _], _ => rfl
    | _ :: _ :: _ :: _ :: _, short => simp only [List.length_cons] at short; omega

theorem decodeChunk_enough {b0 : Byte} {bs : List Byte} (enough : (classify b0).length ≤ bs.length + 1) :
    ∃ i, decodeChunk (b0 :: bs) = .item i ((b0 :: bs).drop (classify b0).length) ∧
      i.length = (classify b0).length := by
  simp only [decodeChunk]
  cases op : classify b0 <;> simp only [op, ChunkOp.length] at enough ⊢
  case index | diff | run => exact ⟨_, rfl, rfl⟩
  case luma =>
    match bs, enough with
    | _ :: _, _ => exact ⟨_, rfl, rfl⟩
  case rgb =>
    match bs, enough with
    | _ :: _ :: _ :: _, _ => exact ⟨_, rfl, rfl⟩
  case rgba =>
    match bs, enough with
    | _ :: _ :: _ :: _ :: _, _ => exact ⟨_, rfl, rfl⟩

/-! ## The fields of a first byte, written again (rules R67 to R71) -/

theorem ofInt_eq_byte {n : Int} {b : Byte} (h : n = b.toNat) : BitVec.ofInt 8 n = b := by
  rw [h, BitVec.ofInt_natCast, BitVec.ofNat_toNat, BitVec.setWidth_eq]

theorem encode_decodeIndex {b : Byte} (tag : classify b = .index) (rest : List Byte) :
    (decodeIndex b).wf = true ∧ encode (decodeIndex b) ++ rest = b :: rest := by
  obtain ⟨-, high⟩ := (classify_eq_iff b _).1 tag
  simp only [ChunkOp.firstBytes] at high
  refine ⟨rfl, congrArg (· :: rest) (BitVec.eq_of_toNat_eq ?_)⟩
  simp only [bits, Fin.val_ofNat, BitVec.toNat_ofNat]
  omega

theorem encode_decodeDiff {b : Byte} (tag : classify b = .diff) (rest : List Byte) :
    (decodeDiff b).wf = true ∧ encode (decodeDiff b) ++ rest = b :: rest := by
  obtain ⟨low, high⟩ := (classify_eq_iff b _).1 tag
  simp only [ChunkOp.firstBytes] at low high
  refine ⟨?_, congrArg (· :: rest) (ofInt_eq_byte ?_)⟩
  · simp only [decodeDiff, Instr.wf, Bool.and_eq_true, inRange_iff, bits, unbias]
    omega
  · simp only [bits, unbias]
    omega

theorem encode_decodeLuma {b0 : Byte} (tag : classify b0 = .luma) (b1 : Byte) (rest : List Byte) :
    (decodeLuma b0 b1).wf = true ∧ encode (decodeLuma b0 b1) ++ rest = b0 :: b1 :: rest := by
  obtain ⟨low, high⟩ := (classify_eq_iff b0 _).1 tag
  have second := b1.isLt
  simp only [ChunkOp.firstBytes] at low high
  refine ⟨?_, congrArg₂ (fun x y => x :: y :: rest) (ofInt_eq_byte ?_) (ofInt_eq_byte ?_)⟩
  · simp only [decodeLuma, Instr.wf, Bool.and_eq_true, inRange_iff, bits, unbias]
    omega
  · simp only [bits, unbias]
    omega
  · simp only [bits, unbias]
    omega

theorem encode_decodeRun {b : Byte} (tag : classify b = .run) (rest : List Byte) :
    (decodeRun b).wf = true ∧ encode (decodeRun b) ++ rest = b :: rest := by
  obtain ⟨low, high⟩ := (classify_eq_iff b _).1 tag
  simp only [ChunkOp.firstBytes] at low high
  refine ⟨?_, congrArg (· :: rest) (ofInt_eq_byte ?_)⟩
  · simp only [decodeRun, Instr.wf, Bool.and_eq_true, decide_eq_true_eq, bits]
    omega
  · simp only [bits]
    omega

/-- The literal tags are single bytes. -/
theorem eq_of_classify_rgb {b : Byte} (tag : classify b = .rgb) : b = 0xFE := by
  obtain ⟨low, high⟩ := (classify_eq_iff b _).1 tag
  exact BitVec.eq_of_toNat_eq (Nat.le_antisymm high low)

theorem eq_of_classify_rgba {b : Byte} (tag : classify b = .rgba) : b = 0xFF := by
  obtain ⟨low, high⟩ := (classify_eq_iff b _).1 tag
  exact BitVec.eq_of_toNat_eq (Nat.le_antisymm high low)

/-! ## Bytes read, written again -/

/-- A chunk that was read is well-formed, and its encoding is the bytes it was read from. -/
theorem encode_of_decodeChunk {bs : List Byte} {i : Instr} {rest : List Byte} (read : decodeChunk bs = .item i rest) :
    i.wf = true ∧ encode i ++ rest = bs := by
  cases bs with
  | nil => cases read
  | cons b0 bs =>
    cases tag : classify b0 <;> simp only [decodeChunk, tag] at read
    case index =>
      cases read
      exact encode_decodeIndex tag rest
    case diff =>
      cases read
      exact encode_decodeDiff tag rest
    case run =>
      cases read
      exact encode_decodeRun tag rest
    case luma =>
      split at read <;> cases read
      exact encode_decodeLuma tag _ rest
    case rgb =>
      split at read <;> cases read
      exact ⟨rfl, by rw [eq_of_classify_rgb tag]; rfl⟩
    case rgba =>
      split at read <;> cases read
      exact ⟨rfl, by rw [eq_of_classify_rgba tag]; rfl⟩

/-- The encoding of a header that was read is the bytes it was read from, its fields legal or not. -/
theorem encode_of_decodeHeader {bs : List Byte} {i : Instr} {rest : List Byte} (read : decodeHeader bs = .item i rest) :
    encode i ++ rest = bs := by
  unfold decodeHeader at read
  split at read <;> cases read
  simp only [encode, be32_fromBe32, List.cons_append, List.nil_append]

/-! ## The statements -/

/-- Settles O1: by the item's position, with the round trips of chunks and of headers. -/
theorem decodeOfEncodeIsItem : Obligations.DecodeOfEncodeIsItem := by
  intro i rest wf
  cases position : i.position with
  | chunk => exact decodeChunk_encode wf position rest
  | header =>
    cases i <;> cases position
    exact decodeHeader_encode _ _ _ _ _ rest
  | trailer =>
    cases i <;> cases position
    rfl

/-- Settles O2: no field drops a bit, whether a chunk's or a header's. -/
theorem encodeOfDecodedIsBytes : Obligations.EncodeOfDecodedIsBytes := by
  refine fun bs i rest => ⟨fun read => ?_, fun read => ⟨?_, encode_of_decodeHeader read⟩⟩
  · obtain ⟨wf, bytes⟩ := encode_of_decodeChunk read
    exact ⟨wf, (decodeChunk_item read).1, bytes⟩
  · obtain ⟨m, w, h, ch, cs, rfl⟩ := decodeHeader_item read
    rfl

/-- Settles O3: operation by operation, with the bytes it needs there or not. -/
theorem firstByteFixesLength : Obligations.FirstByteFixesLength := by
  refine ⟨rfl, fun b0 bs => ⟨decodeChunk_short, decodeChunk_enough, ?_⟩⟩
  cases classify b0 <;> rfl

/-- Settles O4: each operation's first bytes are a range (rule R65), and so are those with given top bits. -/
theorem classifyTestsLiteralsFirst : Obligations.ClassifyTestsLiteralsFirst := by
  intro b
  have bound := b.isLt
  simp only [classify_eq_iff, ChunkOp.firstBytes, ne_eq, ← BitVec.toNat_inj, topBits_toNat, BitVec.reduceToNat]
  omega

/-- Settles O5: the decoder run on each word. -/
theorem specWordsDecode : Obligations.SpecWordsDecode :=
  ⟨by decide, by decide, by decide, by decide, by decide, by decide, by decide, by decide⟩

end Sys2Proof
end

section
/-! The Color Cache (spec/40_color_cache.md): the hash, what an update writes, and which updates write nothing new. -/

namespace Sys2Proof.Machine

theorem cacheIndex_val (p : Pixel) :
    (cacheIndex p).val = (3 * p.r.toNat + 5 * p.g.toNat + 7 * p.b.toNat + 11 * p.a.toNat) % 64 := rfl

/-- A run of a pixel that stands in its slot writes nothing new (rule R95). -/
theorem foldl_update_replicate_of_lookup {cache : Cache} {p : Pixel} (stands : lookup cache (cacheIndex p) = p) (n : Nat) :
    (List.replicate n p).foldl update cache = cache := by
  cases n with
  | zero => rfl
  | succ n => rw [foldl_update_replicate, update_of_lookup stands]

/-- An admitted chunk leaves the cache as its pixels leave it. -/
theorem exec_chunk_cache {i : Instr} (chunk : i.position = .chunk) {s : State} (admitted : s.chunkAdmitted = true) :
    ∃ t, exec i s = .next t ∧ t.cache = (chunkPixels i s).foldl update s.cache :=
  ⟨afterChunk i s, exec_chunk chunk admitted, by rw [afterChunk_eq]⟩

/-- Settles O9: an induction from the last pixel backwards. -/
theorem slotHoldsLastPixelOfItsIndex : Obligations.SlotHoldsLastPixelOfItsIndex := by
  intro ps i
  induction ps using List.reverseRecOn with
  | nil => exact lookup_freshCache i
  | append_singleton ps p ih =>
    rw [cacheAfter_append, lookup_update, List.filter_append, ih]
    by_cases own : cacheIndex p = i
    · simp [own]
    · simp [own, Ne.symm own]

/-- Settles O48: in a pass `PREV` stands in its slot, and a slot that holds a pixel holds one of its own index
(rule R37 (a), (d)). -/
theorem updateIdempotentOnRunAndHit : Obligations.UpdateIdempotentOnRunAndHit := by
  intro s inv phase more
  obtain ⟨pass, -⟩ := inv.decPass phase
  have admitted : s.chunkAdmitted = true := (chunkAdmitted_iff s).mpr ⟨phase, more⟩
  constructor
  · intro counted n
    obtain ⟨t, done, cache⟩ := exec_chunk_cache (i := .run n) rfl admitted
    exact ⟨t, done, cache.trans (foldl_update_replicate_of_lookup (pass.recent counted) _)⟩
  · intro i hit
    obtain ⟨t, done, cache⟩ := exec_chunk_cache (i := .index i) rfl admitted
    have own : cacheIndex (lookup s.cache i) = i := (pass.slots i).resolve_left hit
    exact ⟨t, done, cache.trans (update_of_lookup (congrArg (lookup s.cache) own))⟩

/-- Settles O6: the hash is computed so. -/
theorem hashIsWeightedSumModulo64 : Obligations.HashIsWeightedSumModulo64 := cacheIndex_val

/-- Settles O7: 64 divides 256, so that neither reduction is seen modulo 64. -/
theorem hashInNarrowArithmetic : Obligations.HashInNarrowArithmetic := by
  intro p
  rw [cacheIndex_val]
  simp only [BitVec.toNat_add, BitVec.toNat_mul, BitVec.reduceToNat]
  omega

/-- Settles O8: the two laws of a lookup after an update. -/
theorem updateOverwritesOneSlot : Obligations.UpdateOverwritesOneSlot :=
  fun cache p => ⟨lookup_update_self cache p, fun _ other => lookup_update_other cache p other⟩

end Sys2Proof.Machine
end

section
/-! An encode pass completes as far as it has pixels, with the cache, the previous pixel and the pending run of the pixels
alone (rules R98, R132). -/

namespace Sys2Proof.Machine

/-- `ENC_START` of a well-formed Image completes where no pass is in progress (rule R153). -/
theorem encStart_of_wf {img : Image} (wf : img.wf = true) {s : State} (admitted : s.startAdmitted = true) :
    runCommand (.encStart img.w.toNat img.h.toNat img.ch.toNat img.cs.toNat) s =
      .next (s.beginEncode img.w img.h img.ch img.cs) := by
  obtain ⟨channels, colorspace, -, -⟩ := (Image.wf_iff img).mp wf
  have channels : img.ch.toNat = 3 ∨ img.ch.toNat = 4 := by
    simpa [← BitVec.toNat_inj] using channels
  have colorspace : img.cs.toNat = 0 ∨ img.cs.toNat = 1 := by
    simpa [← BitVec.toNat_inj] using colorspace
  rw [runCommand, cmdEncStart, require_of admitted, if_pos ⟨img.w.isLt, img.h.isLt, channels, colorspace⟩]
  simp only [BitVec.ofNat_toNat, BitVec.setWidth_eq]

/-- An `ENC_PIXEL` completes while pixels are to come (rule R120). -/
theorem EncodeAt.encPixel_next {img : Image} {k : Nat} {e : State} (stands : EncodeAt img k e) (wf : img.wf = true)
    (more : k < img.pix.length) (phase : e.phase = .enc) (p : Pixel) :
    runCommand (.encPixel p) e = .next (e.encodePixel (forceAlpha e.ch p)) := by
  obtain ⟨-, -, size, -⟩ := (Image.wf_iff img).mp wf
  have room : e.pixcnt < e.npix := by rw [stands.counted, stands.size, ← size]; exact more
  exact require_of ((pixelAdmitted_iff e).mpr ⟨phase, room⟩) _ _

/-- `ENC_START` and the first `k` pixels of a well-formed Image complete (rule R166). -/
theorem commandsTo_completes {img : Image} (wf : img.wf = true) {s : State} (admitted : s.startAdmitted = true) {k : Nat}
    (within : k ≤ img.pix.length) : ∃ e, runCommands (img.commandsTo k) s = .next e ∧ e.phase = .enc := by
  induction k with
  | zero =>
    refine ⟨s.beginEncode img.w img.h img.ch img.cs, ?_, rfl⟩
    rw [Image.commandsTo, List.take_zero, List.map_nil, runCommands_singleton]
    exact encStart_of_wf wf admitted
  | succ k ih =>
    obtain ⟨e, run, phase⟩ := ih (Nat.le_of_succ_le within)
    have stands := encodeAt_of_commandsTo (Nat.le_of_succ_le within) run
    refine ⟨e.encodePixel (forceAlpha e.ch img.pix[k]), ?_, (encodePixel_phase _ e).trans phase⟩
    rw [img.commandsTo_succ within, runCommands_append, run, andThen_next, runCommands_singleton]
    exact stands.encPixel_next wf within phase _

/-- The pending run is the tail of the pixels taken: it is what a decoder of the bytes emitted lags behind by (rule R33). -/
theorem pendingRun_suffix {img : Image} (wf : img.wf = true) {s e : State} (admitted : s.startAdmitted = true) {k : Nat}
    (within : k ≤ img.pix.length) (run : runCommands (img.commandsTo k) s = .next e) :
    List.replicate e.run e.prev <:+ img.pixelsTo k := by
  obtain ⟨d, -, stands, lag⟩ := emitted_lags wf admitted rfl within run []
  have prev : e.prev = d.prev :=
    (encodeAt_of_commandsTo within run).prev.trans (stands.pixels.prev_of_pending lag).symm
  exact ⟨d.pout, prev ▸ lag⟩

/-- Settles O33: the pass completes, stands at its pixels alone, and its pending run is their tail. -/
theorem encoderStateFromPixels : Obligations.EncoderStateFromPixels := by
  intro img s k wf phase within
  have admitted := (startAdmitted_iff s).mpr phase
  obtain ⟨e, run, enc⟩ := commandsTo_completes wf admitted within
  obtain ⟨-, -, counted, cache, prev, inv⟩ := encodeAt_of_commandsTo within run
  refine ⟨e, run, enc, counted, cache, prev, counted ▸ inv.runCounted, ?_⟩
  have tail := List.suffix_iff_eq_drop.mp (pendingRun_suffix wf admitted within run)
  rw [img.pixelsTo_length within, List.length_replicate] at tail
  exact tail.symm

end Sys2Proof.Machine
end

section
/-! A pass does not depend on what was before it (rules R96, R138, R167): with everything blanked that a pass neither reads
nor writes, two instances at its start are one, and every command of the pass goes the same way on both. -/

namespace Sys2Proof.Machine

/-! ## What does not read what `g` blanks -/

/-- `f` neither reads what `g` blanks nor fills it in: on the blanked state it answers the same, blanked. -/
def Commutes (g : State → State) (f : State → Result) : Prop :=
  ∀ s, f (g s) = andThen (f s) fun t => .next (g t)

/-- States that are one when blanked are answered with states that are. -/
theorem Commutes.next_of_same {g : State → State} {f : State → Result} (commutes : Commutes g f) {s u t : State}
    (same : g s = g u) (run : f s = .next t) : ∃ t', f u = .next t' ∧ g t' = g t := by
  have blanked : andThen (f u) (fun t => .next (g t)) = .next (g t) := by
    rw [← commutes u, ← same, commutes s, run, andThen_next]
  obtain ⟨t', run', same'⟩ := andThen_eq_next blanked
  exact ⟨t', run', Host.Outcome.next.inj same'⟩

theorem Commutes.next {g : State → State} : Commutes g .next := fun _ => rfl

theorem Commutes.andThen {g : State → State} {f f' : State → Result} (first : Commutes g f) (second : Commutes g f') :
    Commutes g fun s => Machine.andThen (f s) f' := by
  intro s
  simp only [first s, andThen_assoc, andThen_next, second _]

theorem Commutes.ite {g : State → State} {f f' : State → Result} (holds : Commutes g f) (fails : Commutes g f')
    {p : State → Prop} [∀ s, Decidable (p s)] (reads : ∀ s, p (g s) ↔ p s) :
    Commutes g fun s => if p s then f s else f' s := by
  intro s
  simp only [reads]
  split
  · exact holds s
  · exact fails s

/-- A command that has a step where `a` admits it, and then does `h`. -/
theorem Commutes.require {g h : State → State} {a : State → Bool} (reads : ∀ s, a (g s) = a s)
    (writes : ∀ s, h (g s) = g (h s)) (c : Command) : Commutes g fun s => require (a s) c (.next (h s)) := by
  intro s
  simp only [reads, writes]
  cases a s <;> rfl

theorem Commutes.runCommands {g : State → State} {cs : List Command} (each : ∀ c ∈ cs, Commutes g (runCommand c)) :
    Commutes g (runCommands cs) := by
  induction cs with
  | nil => exact .next
  | cons c cs ih => exact (each c List.mem_cons_self).andThen (ih fun d mem => each d (List.mem_cons_of_mem c mem))

/-! ## An encode pass -/

/-- What an encode pass reads and writes after its START; all else is blank. -/
def State.encodePart (s : State) : State := { s with ipos := 0, input := [], pout := [], moves := [], free := ⟨0, 0⟩ }

theorem encPixel_commutes (p : Pixel) : Commutes State.encodePart (runCommand (.encPixel p)) := by
  refine Commutes.require (g := State.encodePart) (h := fun s => s.encodePixel (forceAlpha s.ch p)) (fun _ => rfl)
    (fun s => ?_) _
  simp only [encodePixel_eq]
  rfl

theorem encEnd_commutes : Commutes State.encodePart (runCommand .encEnd) :=
  Commutes.require (g := State.encodePart) (h := afterTrailer) (fun _ => rfl) (fun _ => rfl) _

/-- Where an encode pass starts, nothing of it is left from before but the parameters (rules R34, R138). -/
theorem beginEncode_encodePart {s u : State} (cfg : s.cfg = u.cfg) (w h : Dim) (ch cs : Byte) :
    (s.beginEncode w h ch cs).encodePart = (u.beginEncode w h ch cs).encodePart := by
  simp [State.encodePart, State.beginEncode, State.beginPass, State.emit, cfg]

/-- `ENC_START` completes where it does on another of two instances with the same parameters (rule R153). -/
theorem encStart_agrees {s u t : State} (cfg : s.cfg = u.cfg) (admitted : u.startAdmitted = true) {w h ch cs : Nat}
    (run : runCommand (.encStart w h ch cs) s = .next t) :
    ∃ t', runCommand (.encStart w h ch cs) u = .next t' ∧ t.encodePart = t'.encodePart := by
  cases commandStep_of_next run with
  | encStart _ wide high channels colorspace =>
    refine ⟨_, ?_, beginEncode_encodePart cfg _ _ _ _⟩
    rw [runCommand, cmdEncStart, require_of admitted, if_pos ⟨wide, high, channels, colorspace⟩]

/-- Two instances with the same parameters encode an Image alike. -/
theorem encodeImage_agrees {img : Image} {s u e : State} (cfg : s.cfg = u.cfg) (admitted : u.startAdmitted = true)
    (run : encodeImage img s = .next e) : ∃ e', encodeImage img u = .next e' ∧ e'.encodePart = e.encodePart := by
  obtain ⟨t, start, rest⟩ := andThen_eq_next run
  obtain ⟨t', start', same⟩ := encStart_agrees cfg admitted start
  have commutes : Commutes State.encodePart
      (runCommands ((img.pix.take img.pix.length).map Command.encPixel ++ [Command.encEnd])) := by
    refine .runCommands fun c mem => ?_
    obtain mem | mem := List.mem_append.mp mem
    · obtain ⟨p, -, rfl⟩ := List.mem_map.mp mem
      exact encPixel_commutes p
    · rw [List.mem_singleton.mp mem]
      exact encEnd_commutes
  obtain ⟨e', rest', same'⟩ := commutes.next_of_same same rest
  refine ⟨e', ?_, same'⟩
  rw [encodeImage, Image.commandsTo, List.cons_append, runCommands, start']
  exact rest'

/-! ## A decode pass -/

/-- What a decode pass reads and writes after an accepted header; all else is blank. -/
def State.decodePart (s : State) : State := { s with opos := 0, out := [], moves := [], free := ⟨0, 0⟩ }

theorem flagOverrun_diag (asked remaining : Nat) (s : State) : (s.flagOverrun asked remaining).diag =
    { s.diag with runOverrun := s.diag.runOverrun || decide (remaining < asked) } := by
  unfold State.flagOverrun
  split
  case isTrue exceeds => simp [exceeds]
  case isFalse fits => simp [fits]

/-- The end of a decode pass, field by field (rule R161). -/
theorem afterEnd_eq (s : State) : afterEnd s = { s with
    phase := .done, ipos := s.ipos + (s.input.window s.ipos Config.trailerLen).length,
    diag := if s.input.window s.ipos Config.trailerLen = Config.trailer then s.diag else { s.diag with endBad := true } } := by
  unfold afterEnd
  split <;> rfl

theorem afterChunk_decodePart (i : Instr) (s : State) : afterChunk i s.decodePart = (afterChunk i s).decodePart := by
  have produced : chunkPixels i s.decodePart = chunkPixels i s := by cases i <;> rfl
  have before : (beforeCommit i s.decodePart).diag = (beforeCommit i s).diag := by
    cases i with
    | run n =>
      simp only [beforeCommit, flagOverrun_diag]
      rfl
    | _ => rfl
  rw [afterChunk_eq, afterChunk_eq, produced, before]
  rfl

theorem afterEnd_decodePart (s : State) : afterEnd s.decodePart = (afterEnd s).decodePart := by
  rw [afterEnd_eq, afterEnd_eq]
  rfl

/-- A round that finds no whole chunk raises (rule R101). -/
theorem cmdDecChunk_of_short {d : State} (admitted : d.chunkAdmitted = true)
    (short : decodeChunk (d.input.window d.ipos longestChunk) = .rejected .shortRead) :
    cmdDecChunk d = .next (d.raise .truncated) := by
  obtain ⟨-, raised⟩ | ⟨_, _, found, -⟩ := cmdDecChunk_cases admitted
  · exact raised
  · cases short.symm.trans found

theorem decChunk_commutes : Commutes State.decodePart cmdDecChunk := by
  intro s
  by_cases admitted : s.chunkAdmitted = true
  · obtain ⟨short, raised⟩ | ⟨i, after, read, done⟩ := cmdDecChunk_cases admitted
    · rw [raised, cmdDecChunk_of_short (d := s.decodePart) admitted short]
      rfl
    · rw [done, cmdDecChunk_of_read (d := s.decodePart) admitted read, afterChunk_decodePart]
      rfl
  · have refused : ¬ s.decodePart.chunkAdmitted = true := admitted
    rw [cmdDecChunk, cmdDecChunk, require_not admitted, require_not refused]
    rfl

theorem decEnd_commutes : Commutes State.decodePart cmdDecEnd :=
  Commutes.require (g := State.decodePart) (h := afterEnd) (fun _ => rfl) afterEnd_decodePart _

theorem decodeLoop_commutes (n : Nat) : Commutes State.decodePart (decodeLoop n) := by
  induction n with
  | zero => exact .next
  | succ n ih =>
    exact (decChunk_commutes.andThen ih).ite .next (p := fun s => s.chunkAdmitted = true) fun _ => Iff.rfl

theorem finishDecode_commutes : Commutes State.decodePart finishDecode :=
  decEnd_commutes.ite .next (p := fun s => s.phase = .dec) fun _ => Iff.rfl

/-- A header is accepted where all its fields are legal; otherwise it raises (rules R158, R159). -/
theorem execHeader_eq {s : State} (admitted : s.startAdmitted = true) (m : Magic) (w h : Dim) (ch cs : Byte) :
    execHeader m w h ch cs s = .next
      (if m = s.cfg.magic ∧ legalChannels ch = true ∧ legalColorspace cs = true then s.beginDecode w h ch cs
       else s.raiseAtStart .format) := by
  rw [execHeader, require_of admitted]
  by_cases magic : m = s.cfg.magic
  · cases channels : legalChannels ch
    · simp [magic]
    · cases colorspace : legalColorspace cs <;> simp [magic]
  · simp [magic]

/-- What presenting `bs` and `DEC_START` make of a state in which no pass is in progress (rules R158, R159). -/
def afterStart (bs : List Byte) (s : State) : State :=
  let s' := { s with input := Memory.ofBytes bs }
  match decodeHeader ((Memory.ofBytes bs).window 0 Config.headerLen) with
  | .item (.header m w h ch cs) _ =>
    if m = s.cfg.magic ∧ legalChannels ch = true ∧ legalColorspace cs = true then s'.beginDecode w h ch cs
    else s'.raiseAtStart .format
  | _ => s'.raiseAtStart .truncated

theorem startDecode_eq {s : State} (admitted : s.startAdmitted = true) (bs : List Byte) :
    startDecode bs s = .next (afterStart bs s) := by
  have noDec : s.phase ≠ .dec := by
    rcases (startAdmitted_iff s).mp admitted with h | h | h <;> simp [h]
  have admitted' : { s with input := Memory.ofBytes bs }.startAdmitted = true := admitted
  rw [startDecode, presentInput, if_neg noDec, andThen_next, cmdDecStart, require_of admitted', afterStart]
  simp only [decode]
  cases read : decodeHeader ((Memory.ofBytes bs).window 0 Config.headerLen) with
  | rejected e => rfl
  | item i after =>
    obtain ⟨m, w, h, ch, cs, rfl⟩ := decodeHeader_item read
    exact execHeader_eq admitted' m w h ch cs

/-- Where a decode pass starts, nothing of it is left from before but the parameters (rules R34, R158). With the same ones,
either both instances raise the same error or both begin the same pass. -/
theorem afterStart_agrees {s u : State} (cfg : s.cfg = u.cfg) (bs : List Byte) :
    (∃ e s' u', afterStart bs s = State.raiseAtStart e s' ∧ afterStart bs u = State.raiseAtStart e u') ∨
    (afterStart bs s).decodePart = (afterStart bs u).decodePart := by
  unfold afterStart
  rw [cfg]
  split
  · split
    · right
      simp [State.decodePart, State.beginDecode, State.beginPass]
    · exact .inl ⟨_, _, _, rfl, rfl⟩
  · exact .inl ⟨_, _, _, rfl, rfl⟩

/-- After an error at the START the pass is over (rules R167, R186). -/
theorem loop_raiseAtStart (n : Nat) (e : Err) (s : State) :
    andThen (decodeLoop n (s.raiseAtStart e)) finishDecode = .next (s.raiseAtStart e) := by
  rw [decodeLoop_of_not (by simp), andThen_next, finishDecode, if_neg (by simp)]

/-- `decode` as its START and all that follows (rule R167). -/
theorem decodeStream_eq {s : State} (admitted : s.startAdmitted = true) (bs : List Byte) :
    decodeStream bs s = andThen (decodeLoop bs.length (afterStart bs s)) finishDecode := by
  rw [decodeStream, ← andThen_assoc]
  exact congrArg (fun r => andThen r _) (startDecode_eq admitted bs)

theorem decodeAnswer_decodePart (s : State) : s.decodePart.decodeAnswer = s.decodeAnswer := rfl

/-- Two instances with the same parameters decode a stream to the same answer. -/
theorem decodeStream_agrees {bs : List Byte} {s u d : State} (cfg : s.cfg = u.cfg) (admittedS : s.startAdmitted = true)
    (admittedU : u.startAdmitted = true) (run : decodeStream bs s = .next d) :
    ∃ d', decodeStream bs u = .next d' ∧ d'.decodeAnswer = d.decodeAnswer := by
  rw [decodeStream_eq admittedS] at run
  rw [decodeStream_eq admittedU]
  obtain ⟨e, s', u', raisedS, raisedU⟩ | same := afterStart_agrees cfg bs
  · rw [raisedS, loop_raiseAtStart] at run
    rw [raisedU, loop_raiseAtStart]
    cases run
    exact ⟨_, rfl, rfl⟩
  · obtain ⟨d', run', same'⟩ :=
      ((decodeLoop_commutes bs.length).andThen finishDecode_commutes).next_of_same same run
    refine ⟨d', run', ?_⟩
    rw [← decodeAnswer_decodePart, same', decodeAnswer_decodePart]

/-- Settles O39: the pass of either direction begins alike on both instances and goes the same way. -/
theorem passIndependentOfPast : Obligations.PassIndependentOfPast := by
  intro s u cfg phaseS phaseU
  have admittedS := (startAdmitted_iff s).mpr phaseS
  have admittedU := (startAdmitted_iff u).mpr phaseU
  refine ⟨fun img e run => ?_, fun bs d run => decodeStream_agrees cfg admittedS admittedU run⟩
  obtain ⟨e', run', same⟩ := encodeImage_agrees cfg admittedU run
  exact ⟨e', run', congrArg (·.out) same, congrArg (·.opos) same⟩

end Sys2Proof.Machine
end

section
/-! Executing a chunk (spec/41_chunk_decode.md): each completes where it is admitted, with the pixels it names and the frame
of a chunk, and `DEC_CHUNK` executes the chunk that stands at `IPOS` or raises. -/

namespace Sys2Proof.Machine

/-! ## What an executed chunk leaves -/

/-- A chunk completes where one is admitted (rule R100). -/
theorem exec_chunk_next {i : Instr} (chunk : i.position = .chunk) {s : State} (phase : s.phase = .dec)
    (more : s.pixcnt < s.npix) : exec i s = .next (afterChunk i s) :=
  exec_chunk chunk ((chunkAdmitted_iff s).mpr ⟨phase, more⟩)

/-- A chunk writes `CACHE`, `PREV`, `PIXCNT`, `IPOS`, `DIAG` and `POUT`, and nothing else (rule R36). -/
theorem afterChunk_frame (i : Instr) (s : State) : ChunkFrame s (afterChunk i s) := by
  rw [afterChunk_eq]
  exact ⟨rfl, rfl, rfl, rfl, rfl, rfl, rfl, rfl, fun _ => rfl, fun _ => rfl, ⟨rfl, rfl⟩, rfl, rfl, rfl⟩

/-- An update writes its pixel's slot and no other (rule R93). -/
theorem slotWritten_of_update {s t : State} {p : Pixel} (cache : t.cache = update s.cache p) : SlotWritten s t p where
  slot := by rw [cache, lookup_update_self]
  others := fun _ other => by rw [cache, lookup_update_other _ _ other]

/-- A chunk that produces one pixel and sets no flag commits that pixel (rules R101, R102). -/
theorem exec_onePixel {i : Instr} (chunk : i.position = .chunk) {s : State} {p : Pixel} (pixel : chunkPixels i s = [p])
    (unflagged : beforeCommit i s = s) (phase : s.phase = .dec) (more : s.pixcnt < s.npix) :
    ∃ t, exec i s = .next t ∧ OnePixelChunk s t i.length p := by
  refine ⟨afterChunk i s, exec_chunk_next chunk phase more, ?_⟩
  have frame := afterChunk_frame i s
  rw [afterChunk_eq, pixel, unflagged] at frame ⊢
  exact ⟨frame, rfl, rfl, slotWritten_of_update rfl, rfl, rfl, rfl⟩

/-! ## RUN (rules R106, R107) -/

/-- An executed RUN, field by field: `PREV` is repeated as often as asked or as remains, and its slot alone is written. -/
theorem afterChunk_run {n : Nat} {s : State} (asks : 1 ≤ n) (more : s.pixcnt < s.npix) : afterChunk (.run n) s = { s with
    cache := update s.cache s.prev, pixcnt := s.pixcnt + min n (s.npix - s.pixcnt),
    pout := s.pout ++ List.replicate (min n (s.npix - s.pixcnt)) s.prev, ipos := s.ipos + 1,
    diag := { s.diag with runOverrun := s.diag.runOverrun || decide (s.npix - s.pixcnt < n) } } := by
  obtain ⟨m, times⟩ : ∃ m, min n (s.npix - s.pixcnt) = m + 1 := Nat.exists_eq_succ_of_ne_zero (by omega)
  have prev : (List.replicate (m + 1) s.prev).getLastD s.prev = s.prev := by simp [List.replicate_succ']
  rw [afterChunk_eq, chunkPixels, beforeCommit, flagOverrun_diag, times, foldl_update_replicate, prev, List.length_replicate,
    Instr.length]

/-- Settles O15: a RUN produces a pixel at least, so that `PREV`'s slot is written. -/
theorem runRepeatsPrevious : Obligations.RunRepeatsPrevious := by
  intro n s asks phase more
  have frame := afterChunk_frame (.run n) s
  refine ⟨afterChunk (.run n) s, exec_chunk_next rfl phase more, frame, ?_⟩
  rw [afterChunk_run asks more]
  exact ⟨rfl, slotWritten_of_update rfl, rfl, rfl, rfl, rfl, rfl⟩

/-- A run that fits in the image sets no flag. -/
theorem afterChunk_run_diag {n : Nat} {s : State} (fits : s.pixcnt + n ≤ s.npix) :
    (afterChunk (.run n) s).diag = s.diag := by
  have enough : ¬ s.npix - s.pixcnt < n := by omega
  rw [afterChunk_eq, beforeCommit, State.flagOverrun, if_neg enough]

/-! ## The fetch (rule R101) -/

/-- A header that is all there is executed (rule R158). -/
theorem cmdDecStart_of_read {s : State} {i : Instr} {after : List Byte} (admitted : s.startAdmitted = true)
    (read : decode .header (s.input.window 0 Config.headerLen) = .item i after) : cmdDecStart s = exec i s := by
  rw [cmdDecStart, require_of admitted]
  simp only [read]

/-- A chunk that is all there is executed. -/
theorem cmdDecChunk_exec_of_read {s : State} {i : Instr} {after : List Byte} (admitted : s.chunkAdmitted = true)
    (read : decodeChunk (s.input.window s.ipos longestChunk) = .item i after) : cmdDecChunk s = exec i s := by
  rw [cmdDecChunk_of_read admitted read]
  exact (exec_chunk (decodeChunk_item read).1 admitted).symm

/-- Settles O21: five bytes from `IPOS` hold the whole chunk, which is read back from them. -/
theorem chunkAtPositionIsExecuted : Obligations.ChunkAtPositionIsExecuted := by
  intro s i after phase more dense wf chunk stands
  refine cmdDecChunk_exec_of_read (after := after.take (longestChunk - i.length))
    ((chunkAdmitted_iff s).mpr ⟨phase, more⟩) ?_
  rw [window_item (n := longestChunk) dense stands (chunk_length_le chunk)]
  exact decodeChunk_encode wf chunk _

/-- A window is no longer than the rest of the stream. -/
theorem Memory.window_length_le {m : Memory} (dense : Memory.dense m = true) (a n : Nat) :
    (Memory.window m a n).length ≤ Memory.len m - a := by
  rw [Memory.window_dense dense, Memory.len_eq_length dense, ← Memory.bytes_length, ← List.length_drop]
  exact List.length_take_le' n _

/-- Past its end a stream has no byte to read. -/
theorem Memory.window_past {m : Memory} (dense : Memory.dense m = true) {a : Nat} (past : Memory.len m ≤ a) (n : Nat) :
    Memory.window m a n = [] := by
  have left := Memory.window_length_le dense a n
  exact List.eq_nil_of_length_eq_zero (by omega)

/-- A fetch comes up short where no byte is left, or fewer than the first byte declares. -/
theorem decodeChunk_window_short {m : Memory} (dense : Memory.dense m = true) {a : Nat}
    (short : Memory.len m ≤ a ∨ ∃ b0, Memory.read m a = some b0 ∧ Memory.len m - a < (classify b0).length) (n : Nat) :
    decodeChunk (Memory.window m a (n + 1)) = .rejected .shortRead := by
  obtain past | ⟨b0, first, declared⟩ := short
  · rw [Memory.window_past dense past]
    rfl
  · have bytes : Memory.window m a (n + 1) = b0 :: Memory.window m (a + 1) n := by rw [Memory.window, first]
    have left := Memory.window_length_le dense a (n + 1)
    rw [bytes] at left ⊢
    exact decodeChunk_short (left.trans_lt declared)

/-- Settles O22: the fetch comes up short, and raising writes `ERR` and `PHASE` alone. -/
theorem shortChunkRaisesTruncated : Obligations.ShortChunkRaisesTruncated := by
  intro s phase more dense short
  have admitted : s.chunkAdmitted = true := (chunkAdmitted_iff s).mpr ⟨phase, more⟩
  refine ⟨s.raise .truncated, cmdDecChunk_of_short admitted (decodeChunk_window_short dense short 4), ?_⟩
  simp

/-! ## The chunk the encoder chooses (rule R119) -/

/-- The encoder's priority chain chooses no RUN, and so no flag is set. -/
theorem beforeCommit_chooseChunk (p : Pixel) (s d : State) : beforeCommit (s.chooseChunk p) d = d := by
  unfold State.chooseChunk selectChunk
  dsimp only
  split_ifs <;> rfl

/-- Settles O31: the chosen chunk produces one pixel, the one it was chosen for, and a run that fits is produced whole. -/
theorem chosenChunkReproducesPixel : Obligations.ChosenChunkReproducesPixel := by
  have chosen (p : Pixel) (s : State) : chunkPixels (s.chooseChunk p) s = [p] := chunkPixels_chooseChunk rfl rfl p
  refine ⟨fun p s => ?_, fun p s phase more => ?_, fun n s fits => chunkPixels_run fits, fun n s asks phase fits => ?_⟩
  · obtain ⟨wf, chunk⟩ := chooseChunk_wf p s
    exact ⟨wf, chunk, chosen p s⟩
  · exact exec_onePixel (chooseChunk_wf p s).2 (chosen p s) (beforeCommit_chooseChunk p s s) phase more
  · have more : s.pixcnt < s.npix := by omega
    have whole : min n (s.npix - s.pixcnt) = n := by omega
    have frame := afterChunk_frame (.run n) s
    have diag := afterChunk_run_diag fits
    refine ⟨afterChunk (.run n) s, exec_chunk_next rfl phase more, frame, ?_⟩
    rw [afterChunk_run asks more, whole] at diag ⊢
    exact ⟨rfl, rfl, slotWritten_of_update rfl, rfl, diag⟩

/-! ## The other chunks (rules R103 to R105, R108, R109) -/

/-- A delta is added modulo 256 (rule R110). -/
theorem addDelta_toNat (c : Byte) (d : Int) : ((addDelta c d).toNat : Int) = (c.toNat + d) % 256 :=
  ((addDelta_eq_iff c (addDelta c d) d).mp rfl).symm

/-- Settles O10: the pixel is the one that was looked up. -/
theorem indexProducesSlot : Obligations.IndexProducesSlot :=
  fun i _ phase more => exec_onePixel (i := .index i) rfl rfl rfl phase more

/-- Settles O11: the pixel's channels are sums modulo 256. -/
theorem diffAddsDeltas : Obligations.DiffAddsDeltas := by
  intro dr dg db s phase more
  obtain ⟨t, done, pixel⟩ := exec_onePixel (i := .diff dr dg db) rfl rfl rfl phase more
  exact ⟨t, diffPixel s.prev dr dg db, done, pixel, addDelta_toNat _ _, addDelta_toNat _ _, addDelta_toNat _ _, rfl⟩

/-- Settles O12: red and blue add green's delta and their own relative to it. -/
theorem lumaAddsDeltas : Obligations.LumaAddsDeltas := by
  intro dg drg dbg s phase more
  obtain ⟨t, done, pixel⟩ := exec_onePixel (i := .luma dg drg dbg) rfl rfl rfl phase more
  refine ⟨t, lumaPixel s.prev dg drg dbg, done, pixel, ?_, addDelta_toNat _ _, ?_, rfl⟩
  · rw [Int.add_assoc]
    exact addDelta_toNat _ _
  · rw [Int.add_assoc]
    exact addDelta_toNat _ _

/-- Settles O13: alpha is the previous pixel's. -/
theorem rgbKeepsAlpha : Obligations.RgbKeepsAlpha :=
  fun r g b _ phase more => exec_onePixel (i := .rgb r g b) rfl rfl rfl phase more

/-- Settles O14: the pixel is the four operands. -/
theorem rgbaIsLiteral : Obligations.RgbaIsLiteral :=
  fun r g b a _ phase more => exec_onePixel (i := .rgba r g b a) rfl rfl rfl phase more

/-! ## Refusals and steps -/

/-- Settles O16: by the item's position, each is executed under its own command's admission (rule R152). -/
theorem itemsRefusedOutOfPlace : Obligations.ItemsRefusedOutOfPlace := by
  refine fun i s => ⟨fun chunk out => ?_, fun header out => ?_, fun trailer out => ?_⟩
  · exact exec_chunk_refused chunk ((chunkAdmitted_iff s).not.mpr out)
  · cases i <;> cases header
    exact require_not ((startAdmitted_iff s).not.mpr out) _ _
  · cases i <;> cases trailer
    exact require_not ((decEndAdmitted_iff s).not.mpr out) _ _

/-- Settles O20: a step is the next move's command, and each decode command is `exec` of the item it fetches. -/
theorem stepRunsDecodedItem : Obligations.StepRunsDecodedItem := by
  intro s rest i after
  refine ⟨fun idle => ?_, fun c next => step_issue next, fun next phase read => ?_, fun next phase more read => ?_,
    fun next _ _ read => ?_⟩
  · rw [step, runStep, idle]
  · rw [step_issue next]
    exact cmdDecStart_of_read (s := s.withMoves rest) ((startAdmitted_iff s).mpr phase) read
  · rw [step_issue next]
    exact cmdDecChunk_exec_of_read (s := s.withMoves rest) ((chunkAdmitted_iff s).mpr ⟨phase, more⟩) read
  · rw [step_issue next]
    cases read
    rfl

/-- Settles O49: an executed chunk is its pixels committed, of which no more than remain. -/
theorem executedChunkCommitsItsPixels : Obligations.ExecutedChunkCommitsItsPixels := by
  intro i s chunk phase more
  have room := chunkPixels_length chunk more
  refine ⟨afterChunk i s, exec_chunk_next chunk phase more, ?_⟩
  rw [afterChunk_eq, commitAll_eq]
  exact ⟨rfl, rfl, rfl, rfl, room, rfl⟩

end Sys2Proof.Machine
end

section
/-! The encoder's pixels (spec/42_encoder.md): each is counted into the run or emitted as the first legal chunk of the priority
chain, and what is emitted of a delta gives the channel back. -/

namespace Sys2Proof.Machine

/-! ## One pixel: what it leaves and what it emits (rules R120, R132, R133) -/

/-- A pixel is encoded where one is admitted, with its alpha forced (rules R120, R121). -/
theorem encPixel_next {s : State} (phase : s.phase = .enc) (more : s.pixcnt < s.npix) (p : Pixel) :
    runCommand (.encPixel p) s = .next (s.encodePixel (forceAlpha s.ch p)) :=
  require_of ((pixelAdmitted_iff s).mpr ⟨phase, more⟩) _ _

/-- It writes `CACHE`, `PREV`, `RUN`, `PIXCNT`, `OPOS` and `OUT`, and nothing else (rule R36). -/
theorem encodePixel_frame (p : Pixel) (s : State) : EncFrame s (s.encodePixel p) := by
  rw [encodePixel_eq]
  exact ⟨rfl, rfl, rfl, rfl, rfl, rfl, rfl, fun _ => rfl, rfl, rfl, rfl, rfl, rfl⟩

/-- A state whose `OUT` has bytes appended and counted has emitted them (rule R44). -/
theorem emitted_of_append {s t : State} {bs : List Byte} (out : t.out = s.out.append bs)
    (opos : t.opos = s.opos + bs.length) : Emitted s t bs where
  bytes := by rw [out, Memory.bytes_append]
  outside := fun a outside => by rw [out, Memory.read_append_outside _ _ a outside]
  counted := opos

theorem encodePixel_emitted (p : Pixel) (s : State) : Emitted s (s.encodePixel p) (pixelBytes p s) :=
  emitted_of_append (encodePixel_out p s) (encodePixel_opos p s)

theorem encodePixel_slotWritten (p : Pixel) (s : State) : SlotWritten s (s.encodePixel p) p :=
  slotWritten_of_update (encodePixel_cache p s)

/-- A run's byte, whatever the run's length (rule R71). -/
theorem encode_run {n : Nat} (pends : 0 < n) : encode (.run n) = [BitVec.ofNat 8 (0xC0 + (n - 1))] := by
  have field : (0xC0 + ((n : Int) - 1)) = ((0xC0 + (n - 1) : Nat) : Int) := by omega
  rw [encode, field, BitVec.ofInt_natCast]

/-- The bytes of a run that is written if one is pending (rule R123). -/
theorem pending_bytes (n : Nat) :
    (if 0 < n then encode (.run n) else []) = if 0 < n then [BitVec.ofNat 8 (0xC0 + (n - 1))] else [] := by
  split
  case isTrue pends => exact encode_run pends
  case isFalse => rfl

/-- Settles O27: of `PREV` the encoder emits the run that is full or last, and else counts it. -/
theorem encPixelCountsRun : Obligations.EncPixelCountsRun := by
  intro p s phase more repeats
  have emitted := encodePixel_emitted s.prev s
  have run := encodePixel_run s.prev s
  rw [pixelBytes, if_pos rfl] at emitted
  rw [runAfter, if_pos rfl] at run
  refine ⟨s.encodePixel s.prev, repeats ▸ encPixel_next phase more p, encodePixel_frame _ s, fun flush => ?_, fun counts => ?_,
    encodePixel_slotWritten _ s, encodePixel_prev _ s, encodePixel_pixcnt _ s, (encodePixel_phase _ s).trans phase⟩
  · rw [if_pos flush] at run emitted
    exact ⟨run, encode_run s.run.succ_pos ▸ emitted⟩
  · rw [if_neg counts] at run emitted
    exact ⟨run, emitted⟩

/-- Settles O28: of another pixel it emits the pending run and the chosen chunk. -/
theorem encPixelEmitsChunk : Obligations.EncPixelEmitsChunk := by
  intro p s phase more differs
  have emitted := encodePixel_emitted (forceAlpha s.ch p) s
  have run := encodePixel_run (forceAlpha s.ch p) s
  rw [pixelBytes, if_neg differs, pending_bytes] at emitted
  rw [runAfter, if_neg differs] at run
  exact ⟨_, encPixel_next phase more p, encodePixel_frame _ s, run, emitted, encodePixel_slotWritten _ s,
    encodePixel_prev _ s, encodePixel_pixcnt _ s, (encodePixel_phase _ s).trans phase⟩

/-! ## The priority chain (rules R124 to R130) -/

section
variable {wrap : Bool} {i : Fin 64} {slot prev p : Pixel}

theorem selectChunk_index (hit : slot = p) : selectChunk wrap i slot prev p = .index i := if_pos hit

theorem selectChunk_diff (miss : slot ≠ p) (alpha : p.a = prev.a) (fits : (pixelDeltas wrap prev p).fitDiff = true) :
    selectChunk wrap i slot prev p = .diff (pixelDeltas wrap prev p).dr (pixelDeltas wrap prev p).dg
      (pixelDeltas wrap prev p).db := by
  rw [selectChunk, if_neg miss, if_pos ⟨alpha, fits⟩]

theorem selectChunk_luma (miss : slot ≠ p) (alpha : p.a = prev.a) (noDiff : ¬ (pixelDeltas wrap prev p).fitDiff = true)
    (fits : (pixelDeltas wrap prev p).fitLuma = true) :
    selectChunk wrap i slot prev p = .luma (pixelDeltas wrap prev p).dg (pixelDeltas wrap prev p).drg
      (pixelDeltas wrap prev p).dbg := by
  rw [selectChunk, if_neg miss, if_neg fun both => noDiff both.2, if_pos ⟨alpha, fits⟩]

theorem selectChunk_rgb (miss : slot ≠ p) (alpha : p.a = prev.a) (noDiff : ¬ (pixelDeltas wrap prev p).fitDiff = true)
    (noLuma : ¬ (pixelDeltas wrap prev p).fitLuma = true) : selectChunk wrap i slot prev p = .rgb p.r p.g p.b := by
  rw [selectChunk, if_neg miss, if_neg fun both => noDiff both.2, if_neg fun both => noLuma both.2, if_pos alpha]

theorem selectChunk_rgba (miss : slot ≠ p) (alpha : p.a ≠ prev.a) :
    selectChunk wrap i slot prev p = .rgba p.r p.g p.b p.a := by
  rw [selectChunk, if_neg miss, if_neg fun both => alpha both.1, if_neg fun both => alpha both.1, if_neg alpha]

end

theorem fitDiff_iff (d : Deltas) :
    d.fitDiff = true ↔ -2 ≤ d.dr ∧ d.dr ≤ 1 ∧ -2 ≤ d.dg ∧ d.dg ≤ 1 ∧ -2 ≤ d.db ∧ d.db ≤ 1 := by
  simp [Deltas.fitDiff, and_assoc]

theorem fitLuma_iff (d : Deltas) :
    d.fitLuma = true ↔ -32 ≤ d.dg ∧ d.dg ≤ 31 ∧ -8 ≤ d.drg ∧ d.drg ≤ 7 ∧ -8 ≤ d.dbg ∧ d.dbg ≤ 7 := by
  simp [Deltas.fitLuma, and_assoc]

/-- Settles O29: with plain deltas the predicates of the chain are the ranges of the differences themselves (rule R125). -/
theorem priorityChainPicksFirstLegal : Obligations.PriorityChainPicksFirstLegal := by
  intro p s plain dr dg db hit diff luma bytes asBytes
  have chosen : s.chooseChunk p = selectChunk false (cacheIndex p) (lookup s.cache (cacheIndex p)) s.prev p := by
    rw [State.chooseChunk, plain]
  have fitsDiff : (pixelDeltas false s.prev p).fitDiff = true ↔ diff := fitDiff_iff _
  have fitsLuma : (pixelDeltas false s.prev p).fitLuma = true ↔ luma := fitLuma_iff _
  refine ⟨fun hit => ?_, fun miss alpha fits => ?_, fun miss alpha noDiff fits => ?_, fun miss alpha noDiff noLuma => ?_,
    fun miss alpha => ?_⟩
  · simp only [bytes, chosen, selectChunk_index hit]
    rfl
  · simp only [bytes, chosen, selectChunk_diff miss alpha (fitsDiff.mpr fits)]
    rfl
  · simp only [bytes, chosen, selectChunk_luma miss alpha (fitsDiff.not.mpr noDiff) (fitsLuma.mpr fits)]
    simp only [asBytes, encode, Int.add_assoc]
    rfl
  · rw [chosen, selectChunk_rgb miss alpha (fitsDiff.not.mpr noDiff) (fitsLuma.not.mpr noLuma)]
    rfl
  · rw [chosen, selectChunk_rgba miss alpha]
    rfl

/-! ## Deltas (rules R125, R136) -/

/-- A number reduced as rule R13 says is in -128..127. -/
theorem sext8_emod_bounds (v : Int) : -128 ≤ sext8 (v % 256) ∧ sext8 (v % 256) ≤ 127 := by
  rw [sext8]
  split <;> omega

/-- Settles O32: the delta is the difference modulo 256, plain or reduced. -/
theorem deltaAddedGivesChannelBack : Obligations.DeltaAddedGivesChannelBack := by
  intro wrap c prev
  refine ⟨addDelta_channelDelta wrap c prev, ?_⟩
  cases wrap with
  | false =>
    have plain : channelDelta false c prev = (c.toNat : Int) - prev.toNat := rfl
    have := c.isLt
    have := prev.isLt
    rw [plain]
    exact ⟨by omega, by omega, nofun⟩
  | true =>
    have reduced := sext8_emod_bounds ((c.toNat : Int) - prev.toNat)
    change -128 ≤ channelDelta true c prev ∧ channelDelta true c prev ≤ 127 at reduced
    exact ⟨by omega, by omega, fun _ => reduced⟩

end Sys2Proof.Machine
end

section
/-! The framing items and the commands that start, end and reset a pass (spec/43_framing_and_pass_control.md): where each has a
step, and what that step leaves. -/

namespace Sys2Proof.Machine

/-! ## The encoder's START and end (rules R153 to R156) -/

/-- `ENC_START` with legal arguments completes where no pass is in progress. -/
theorem encStart_of_legal {s : State} (admitted : s.startAdmitted = true) {w h ch cs : Nat}
    (legal : w < 2 ^ 32 ∧ h < 2 ^ 32 ∧ (ch = 3 ∨ ch = 4) ∧ (cs = 0 ∨ cs = 1)) :
    runCommand (.encStart w h ch cs) s =
      .next (s.beginEncode (BitVec.ofNat 32 w) (BitVec.ofNat 32 h) (BitVec.ofNat 8 ch) (BitVec.ofNat 8 cs)) := by
  rw [runCommand, cmdEncStart, require_of admitted, if_pos legal]

theorem beginEncode_passStarted (w h : Dim) (ch cs : Byte) (s : State) : PassStarted (s.beginEncode w h ch cs) w h ch cs :=
  ⟨lookup_freshCache, rfl, rfl, ⟨rfl, rfl, rfl, rfl⟩, rfl, rfl, rfl⟩

/-- `OUT` starts anew with the header (rule R154). -/
theorem beginEncode_out (w h : Dim) (ch cs : Byte) (s : State) :
    (s.beginEncode w h ch cs).out = Memory.ofBytes (encode (.header s.cfg.magic w h ch cs)) := rfl

/-- The bytes of a dimension, the most significant first (rules R13, R47). -/
theorem be32_ofNat_toNat {n : Nat} (wide : n < 2 ^ 32) : (be32 (BitVec.ofNat 32 n)).map BitVec.toNat =
    [n / 2 ^ 24, n / 2 ^ 16 % 256, n / 2 ^ 8 % 256, n % 256] := by
  simp only [be32, BitVec.toNat_ofNat, Nat.mod_eq_of_lt wide, List.map_cons, List.map_nil]
  rw [Nat.mod_eq_of_lt (show n / 2 ^ 24 < 2 ^ 8 by omega)]

/-- Settles O26: `OUT` starts anew with the header's bytes. -/
theorem encStartEmitsHeader : Obligations.EncStartEmitsHeader := by
  intro w h ch cs s phase wide high channels colorspace
  refine ⟨_, encStart_of_legal ((startAdmitted_iff s).mpr phase) ⟨wide, high, channels, colorspace⟩,
    beginEncode_passStarted _ _ _ _ s, ?_, Memory.ofBytes_dense _, rfl, rfl, rfl, rfl, fun _ => rfl, rfl, rfl, rfl⟩
  have ch8 : ch % 2 ^ 8 = ch := Nat.mod_eq_of_lt (by omega)
  have cs8 : cs % 2 ^ 8 = cs := Nat.mod_eq_of_lt (by omega)
  rw [beginEncode_out, Memory.bytes_ofBytes, encode, List.map_append, List.map_append, List.map_append,
    be32_ofNat_toNat wide, be32_ofNat_toNat high]
  simp only [List.map_cons, List.map_nil, BitVec.toNat_ofNat, ch8, cs8]
  rfl

/-- `ENC_END` completes where all pixels have been taken (rule R155). -/
theorem encEnd_next {s : State} (phase : s.phase = .enc) (full : s.pixcnt = s.npix) :
    runCommand .encEnd s = .next (afterTrailer s) :=
  require_of ((encEndAdmitted_iff s).mpr ⟨phase, full⟩) _ _

/-- Settles O30: the trailer is appended and `PHASE` written, nothing else. -/
theorem encEndEmitsTrailer : Obligations.EncEndEmitsTrailer := by
  intro s phase full
  have frame : EncFrame s (afterTrailer s) := ⟨rfl, rfl, rfl, rfl, rfl, rfl, rfl, fun _ => rfl, rfl, rfl, rfl, rfl, rfl⟩
  constructor
  · exact ⟨afterTrailer s, encEnd_next phase full, frame, emitted_of_append rfl rfl, rfl, rfl, rfl, rfl, rfl⟩
  · intro inv
    obtain ⟨-, enc⟩ := inv.encPass phase
    exact enc.runFlushed full

/-- Settles O25: whatever the state was. -/
theorem resetLeavesIdle : Obligations.ResetLeavesIdle :=
  fun s => ⟨afterReset s, rfl, rfl, rfl, rfl, rfl, rfl, rfl, rfl, rfl⟩

/-! ## The header (rules R158, R159) -/

theorem beginDecode_passStarted (w h : Dim) (ch cs : Byte) (s : State) : PassStarted (s.beginDecode w h ch cs) w h ch cs :=
  ⟨lookup_freshCache, rfl, rfl, ⟨rfl, rfl, rfl, rfl⟩, rfl, rfl, rfl⟩

/-- Settles O17: the header is accepted. -/
theorem headerBeginsDecodePass : Obligations.HeaderBeginsDecodePass := by
  intro w h ch cs s phase channels colorspace
  have legal : s.cfg.magic = s.cfg.magic ∧ legalChannels ch = true ∧ legalColorspace cs = true :=
    ⟨rfl, (legalChannels_iff ch).mpr channels, (legalColorspace_iff cs).mpr colorspace⟩
  refine ⟨s.beginDecode w h ch cs, ?_, beginDecode_passStarted w h ch cs s, rfl, rfl, rfl, rfl, fun _ => rfl, fun _ => rfl, rfl,
    rfl, rfl, rfl, rfl⟩
  rw [exec, execHeader_eq ((startAdmitted_iff s).mpr phase), if_pos legal]

/-- Settles O18: one of the three fields is not as it must be. -/
theorem badHeaderRaisesFormat : Obligations.BadHeaderRaisesFormat := by
  intro m w h ch cs s phase bad
  have illegal : ¬ (m = s.cfg.magic ∧ legalChannels ch = true ∧ legalColorspace cs = true) := by
    rintro ⟨magic, channels, colorspace⟩
    obtain other | other | other := bad
    · exact other magic
    · exact other ((legalChannels_iff ch).mp channels)
    · exact other ((legalColorspace_iff cs).mp colorspace)
  refine ⟨s.raiseAtStart .format, ?_, rfl, rfl, rfl, fun _ => rfl, fun _ => rfl, rfl, rfl⟩
  rw [exec, execHeader_eq ((startAdmitted_iff s).mpr phase), if_neg illegal]

/-- A header that is not all there is a short read (D8). -/
theorem decodeHeader_window_short {m : Memory} (dense : Memory.dense m = true) (short : Memory.len m < 14) :
    decodeHeader (Memory.window m 0 14) = .rejected .shortRead := by
  cases read : decodeHeader (Memory.window m 0 14) with
  | rejected e => rfl
  | item i after => exact absurd (header_within dense read) (by omega)

/-- A short header raises before any field is looked at (D8). -/
theorem cmdDecStart_of_short {s : State} (admitted : s.startAdmitted = true)
    (short : decodeHeader (s.input.window 0 Config.headerLen) = .rejected .shortRead) :
    cmdDecStart s = .next (s.raiseAtStart .truncated) := by
  rw [cmdDecStart, require_of admitted]
  simp only [decode, short]

/-- Settles O23: a short read raises, and otherwise the first 14 bytes are read as the header they are. -/
theorem decStartReadsHeader : Obligations.DecStartReadsHeader := by
  intro s phase dense
  have admitted := (startAdmitted_iff s).mpr phase
  refine ⟨fun short => ?_, fun m0 m1 m2 m3 w0 w1 w2 w3 h0 h1 h2 h3 ch cs rest bytes => ?_⟩
  · exact ⟨_, cmdDecStart_of_short admitted (decodeHeader_window_short dense short), rfl, rfl, rfl⟩
  · refine cmdDecStart_of_read (after := []) admitted ?_
    rw [Memory.window_dense dense, bytes, ← fromBe32_append, ← fromBe32_append]
    rfl

/-! ## END (rule R161) -/

/-- The trailer can be read exactly where it is found. -/
theorem streamRead_trailer_iff {m : Memory} (dense : Memory.dense m = true) (pos : Nat) :
    Memory.streamRead m pos Config.trailerLen = some Config.trailer ↔
      Memory.window m pos Config.trailerLen = Config.trailer := by
  rw [Memory.streamRead]
  constructor
  · intro read
    split at read
    · exact Option.some.inj read
    · cases read
  · intro found
    have within := Memory.window_within dense pos Config.trailerLen (by rw [found]; decide)
    rw [found] at within ⊢
    exact if_pos ⟨within, rfl⟩

/-- How many bytes are there of those looked for (D9). -/
theorem Memory.window_length_eq {m : Memory} (dense : Memory.dense m = true) (a n : Nat) :
    (Memory.window m a n).length = min n (Memory.len m - a) := by
  rw [Memory.window_dense dense, List.length_take, List.length_drop, Memory.bytes_length, Memory.len_eq_length dense]

/-- Settles O19: the trailer is found whole or it is not. -/
theorem endExaminesTrailer : Obligations.EndExaminesTrailer := by
  intro s phase full dense
  have whole := streamRead_trailer_iff dense s.ipos
  refine ⟨afterEnd s, execEnd_of ((decEndAdmitted_iff s).mpr ⟨phase, full⟩), ?_⟩
  rw [afterEnd_eq]
  refine ⟨rfl, fun read => ?_, fun unread => ?_, rfl, rfl, rfl, rfl, rfl, rfl, rfl, rfl, rfl, rfl, rfl,
    fun _ => rfl, fun _ => rfl, rfl, rfl, rfl⟩
  · have found := whole.mp read
    exact ⟨if_pos found, by rw [found]; rfl⟩
  · have missing : ¬ s.input.window s.ipos Config.trailerLen = Config.trailer := fun found => unread (whole.mpr found)
    rw [if_neg missing, Memory.window_length_eq dense]
    exact ⟨rfl, rfl, rfl⟩

/-! ## Admission (rules R151 to R153) -/

/-- `DEC_START` completes wherever no pass is in progress, with an error at worst. -/
theorem cmdDecStart_completes {s : State} (admitted : s.startAdmitted = true) : ∃ t, cmdDecStart s = .next t := by
  cases read : decodeHeader (s.input.window 0 Config.headerLen) with
  | rejected e => exact ⟨_, cmdDecStart_of_short admitted read⟩
  | item i after =>
    obtain ⟨m, w, h, ch, cs, rfl⟩ := decodeHeader_item read
    exact ⟨_, (cmdDecStart_of_read admitted read).trans (execHeader_eq admitted m w h ch cs)⟩

/-- So does `DEC_CHUNK` while pixels are to come. -/
theorem cmdDecChunk_completes {s : State} (admitted : s.chunkAdmitted = true) : ∃ t, cmdDecChunk s = .next t := by
  obtain ⟨-, raised⟩ | ⟨_, _, -, done⟩ := cmdDecChunk_cases admitted
  · exact ⟨_, raised⟩
  · exact ⟨_, done⟩

theorem Command.completes_of_admitted {c : Command} {s : State} (admitted : c.admitted s) : ∃ t, runCommand c s = .next t := by
  cases c with
  | reset => exact ⟨_, rfl⟩
  | encStart =>
    obtain ⟨phase, legal⟩ := admitted
    exact ⟨_, encStart_of_legal ((startAdmitted_iff s).mpr phase) legal⟩
  | encPixel p =>
    obtain ⟨phase, more⟩ := admitted
    exact ⟨_, encPixel_next phase more p⟩
  | encEnd =>
    obtain ⟨phase, full⟩ := admitted
    exact ⟨_, encEnd_next phase full⟩
  | decStart => exact cmdDecStart_completes ((startAdmitted_iff s).mpr admitted)
  | decChunk => exact cmdDecChunk_completes ((chunkAdmitted_iff s).mpr admitted)
  | decEnd => exact ⟨_, execEnd_of ((decEndAdmitted_iff s).mpr admitted)⟩

theorem Command.refused_of_not_admitted {c : Command} {s : State} (out : ¬ c.admitted s) :
    ∃ r, runCommand c s = .refused r := by
  cases c with
  | reset => exact absurd trivial out
  | encStart w h ch cs =>
    rw [runCommand, cmdEncStart]
    by_cases admitted : s.startAdmitted = true
    · have illFormed := fun legal => out ⟨(startAdmitted_iff s).mp admitted, legal⟩
      rw [require_of admitted, if_neg illFormed]
      exact ⟨_, rfl⟩
    · exact ⟨_, require_not admitted _ _⟩
  | encPixel => exact ⟨_, require_not ((pixelAdmitted_iff s).not.mpr out) _ _⟩
  | encEnd => exact ⟨_, require_not ((encEndAdmitted_iff s).not.mpr out) _ _⟩
  | decStart => exact ⟨_, require_not ((startAdmitted_iff s).not.mpr out) _ _⟩
  | decChunk => exact ⟨_, require_not ((chunkAdmitted_iff s).not.mpr out) _ _⟩
  | decEnd => exact ⟨_, require_not ((decEndAdmitted_iff s).not.mpr out) _ _⟩

/-- Settles O24: each command tests its own row of the table, and `ENC_START` its arguments besides. -/
theorem commandsStepWhereAdmitted : Obligations.CommandsStepWhereAdmitted :=
  fun _ _ => ⟨Command.completes_of_admitted, Command.refused_of_not_admitted⟩

end Sys2Proof.Machine
end

section
/-! The stream of an encode pass: the header, chunks, the trailer (rules R44, R166). -/

namespace Sys2Proof.Machine

/-- Appending to a presented stream. -/
theorem Memory.append_ofBytes (a b : List Byte) : Memory.append (Memory.ofBytes a) b = Memory.ofBytes (a ++ b) :=
  Memory.append_append [] a b

/-- In an encode pass no error is raised, and `OUT` holds the header and what the pixels made of it. -/
theorem commandsTo_out {img : Image} {s e : State} {k : Nat} (within : k ≤ img.pix.length)
    (run : runCommands (img.commandsTo k) s = .next e) :
    e.err = .none ∧ ∃ chunks, e.out = Memory.ofBytes (encode (.header s.cfg.magic img.w img.h img.ch img.cs) ++ chunks) := by
  refine encode_induction (P := fun _ e => e.err = .none ∧
    ∃ chunks, e.out = Memory.ofBytes (encode (.header s.cfg.magic img.w img.h img.ch img.cs) ++ chunks)) ?_ ?_ k e within run
  · exact ⟨rfl, [], by rw [beginEncode_out, List.append_nil]⟩
  · intro k e more _ ⟨err, chunks, out⟩
    refine ⟨(encodePixel_err _ e).trans err, chunks ++ pixelBytes (forceAlpha e.ch img.pix[k]) e, ?_⟩
    rw [encodePixel_out, out, Memory.append_ofBytes, List.append_assoc]

/-- Settles O37: the pass completes, its bytes are counted, and its room is bound by the invariant. -/
theorem encodeSucceeds : Obligations.EncodeSucceeds := by
  intro img s wf phase
  obtain ⟨-, -, size, -⟩ := (Image.wf_iff img).mp wf
  obtain ⟨e, run, enc⟩ := commandsTo_completes wf ((startAdmitted_iff s).mpr phase) le_rfl
  obtain ⟨-, npix, counted, -, -, inv⟩ := encodeAt_of_commandsTo le_rfl run
  obtain ⟨err, chunks, out⟩ := commandsTo_out le_rfl run
  have full : e.pixcnt = e.npix := by rw [counted, npix, size]
  have header : (encode (.header s.cfg.magic img.w img.h img.ch img.cs)).length = 14 := rfl
  have opos : e.opos = 14 + chunks.length := by
    rw [inv.position, out, Memory.len_ofBytes, List.length_append, header]
  have room := inv.room
  have bytes : (afterTrailer e).out.bytes = encode (.header s.cfg.magic img.w img.h img.ch img.cs) ++ chunks ++
      encode .endMarker := by
    show (e.out.append _).bytes = _
    rw [Memory.bytes_append, out, Memory.bytes_ofBytes]
  have total : (afterTrailer e).opos = e.opos + 8 := rfl
  refine ⟨afterTrailer e, chunks, ?_, rfl, err, bytes, ?_, ?_, ?_⟩
  · rw [encodeImage, runCommands_append, run, andThen_next, runCommands_singleton]
    exact encEnd_next enc full
  · rw [bytes, total, opos, List.length_append, List.length_append, header]
    rfl
  · omega
  · rw [← size, total, ← counted]
    omega

end Sys2Proof.Machine
end

section
/-! How a decode pass ends: on every input, in all its pixels or in an error (rules R158, R161, R167); and on an encoded
stream, in the Image (rules R119, R168). -/

namespace Sys2Proof.Machine

/-! ## The start -/

/-- A decode pass starts with an error, or with an accepted header that was all there (rules R158, R159). -/
theorem afterStart_cases (bs : List Byte) (s : State) :
    (∃ e s', (e = .format ∨ e = .truncated) ∧ afterStart bs s = State.raiseAtStart e s') ∨
    ∃ w h ch cs, 14 ≤ bs.length ∧ afterStart bs s = { s with input := Memory.ofBytes bs }.beginDecode w h ch cs := by
  unfold afterStart
  split
  next read =>
    split
    · have whole := header_within (Memory.ofBytes_dense bs) read
      rw [Memory.len_ofBytes] at whole
      exact .inr ⟨_, _, _, _, whole, rfl⟩
    · exact .inl ⟨_, _, .inl rfl, rfl⟩
  next => exact .inl ⟨_, _, .inr rfl, rfl⟩

/-- Either way no flag is set (rules R31, R34). -/
theorem afterStart_diag (bs : List Byte) (s : State) : (afterStart bs s).diag = ⟨false, false⟩ := by
  obtain ⟨e, s', -, raised⟩ | ⟨w, h, ch, cs, -, begun⟩ := afterStart_cases bs s
  · rw [raised]; rfl
  · rw [begun]; rfl

/-- A stream that begins with a legal header begins that pass. -/
theorem afterStart_header {u : State} {w h : Dim} {ch cs : Byte} (channels : legalChannels ch = true)
    (colorspace : legalColorspace cs = true) (rest : List Byte) {bs : List Byte}
    (header : bs = encode (.header u.cfg.magic w h ch cs) ++ rest) :
    afterStart bs u = { u with input := Memory.ofBytes bs }.beginDecode w h ch cs := by
  have read : decodeHeader ((Memory.ofBytes bs).window 0 Config.headerLen) =
      .item (.header u.cfg.magic w h ch cs) (rest.take 0) := by
    rw [window_item (Memory.ofBytes_dense bs) (by rw [Memory.bytes_ofBytes, header, List.drop_zero]) (Nat.le_refl 14)]
    exact decodeHeader_encode _ w h ch cs _
  simp [afterStart, read, channels, colorspace]

theorem DecodeAt.beginDecode (bs : List Byte) (s : State) (w h : Dim) (ch cs : Byte) :
    DecodeAt bs (w.toNat * h.toNat) 14 ({ s with input := Memory.ofBytes bs }.beginDecode w h ch cs) :=
  ⟨rfl, rfl, rfl, rfl, .beginDecode w h ch cs _⟩

/-! ## The loop ends (rule R167) -/

/-- How the decode loop of a pass of `n` pixels over `bs` ends: with all of them, inside the stream, or in a short read. -/
def LoopEnds (bs : List Byte) (n : Nat) (t : State) : Prop :=
  (∃ pos, DecodeAt bs n pos t ∧ t.pout.length = n ∧ pos ≤ bs.length) ∨ (t.phase = .failed ∧ t.err = .truncated)

theorem DecodeAt.afterChunk {bs : List Byte} {n pos : Nat} {d : State} (stands : DecodeAt bs n pos d) (i : Instr) :
    DecodeAt bs n (pos + i.length) (afterChunk i d) := by
  obtain ⟨phase, input, size, position, pixels⟩ := stands
  have pixels := pixels.afterChunk i
  rw [afterChunk_eq] at pixels ⊢
  exact ⟨phase, input, size, congrArg (· + i.length) position, pixels⟩

theorem LoopEnds.not_admitted {bs : List Byte} {n : Nat} {t : State} (ends : LoopEnds bs n t) :
    ¬ t.chunkAdmitted = true := by
  obtain ⟨pos, stands, full, -⟩ | ⟨failed, -⟩ := ends
  · simp [stands.size, stands.pixels.counted, full]
  · simp [failed]

/-- Every round consumes a byte or fails, so that one round more than bytes are left is enough. -/
theorem decodeLoop_ends {bs : List Byte} {n pos k : Nat} {d : State} (stands : DecodeAt bs n pos d)
    (within : pos ≤ bs.length) (room : d.pout.length ≤ n) (enough : bs.length < pos + k) :
    ∃ t, decodeLoop k d = .next t ∧ LoopEnds bs n t := by
  induction k generalizing pos d with
  | zero => omega
  | succ k ih =>
    by_cases admitted : d.chunkAdmitted = true
    case neg =>
      have full : d.pout.length = n := by
        have : n ≤ d.pixcnt := by simpa [stands.phase, stands.size] using admitted
        have := stands.pixels.counted
        omega
      exact ⟨d, decodeLoop_of_not admitted _, .inl ⟨pos, stands, full, within⟩⟩
    case pos =>
      rw [decodeLoop, if_pos admitted]
      obtain ⟨-, raised⟩ | ⟨i, after, read, done⟩ := cmdDecChunk_cases admitted
      · rw [raised, andThen_next, decodeLoop_of_not (by simp)]
        exact ⟨_, rfl, .inr ⟨rfl, rfl⟩⟩
      · have long := (decodeChunk_item read).2.1
        have consumed := item_length_pos i
        have left := Memory.window_length_le (Memory.ofBytes_dense bs) pos longestChunk
        rw [Memory.len_ofBytes] at left
        have room' := chunkPixels_length (decodeChunk_item read).1 ((chunkAdmitted_iff d).mp admitted).2
        rw [stands.size, stands.pixels.counted] at room'
        rw [stands.input, stands.position] at long
        rw [done, andThen_next]
        refine ih (stands.afterChunk i) (by omega) ?_ (by omega)
        rw [afterChunk_eq, List.length_append]
        exact room'

/-- `DEC_END` after all pixels (rule R161). -/
theorem DecodeAt.finish {bs : List Byte} {n pos : Nat} {t : State} (stands : DecodeAt bs n pos t)
    (full : t.pout.length = n) : finishDecode t = .next (afterEnd t) := by
  rw [finishDecode, if_pos stands.phase]
  refine execEnd_of ((decEndAdmitted_iff t).mpr ⟨stands.phase, ?_⟩)
  rw [stands.size, stands.pixels.counted, full]

/-- The trailer is looked for in what is left of the stream (D9). -/
theorem DecodeAt.afterEnd_within {bs : List Byte} {n pos : Nat} {t : State} (stands : DecodeAt bs n pos t)
    (within : pos ≤ bs.length) : (afterEnd t).ipos ≤ bs.length := by
  have left := Memory.window_length_le (Memory.ofBytes_dense bs) pos Config.trailerLen
  rw [Memory.len_ofBytes] at left
  rw [afterEnd_eq, stands.input, stands.position]
  show pos + _ ≤ _
  omega

/-- Settles O38: the pass raises at its START, or its loop ends, in all the pixels or in a short read. -/
theorem decodeEnds : Obligations.DecodeEnds := by
  intro bs s phase
  rw [decodeStream_eq ((startAdmitted_iff s).mpr phase)]
  obtain ⟨e, s', kind, raised⟩ | ⟨w, h, ch, cs, header, begun⟩ := afterStart_cases bs s
  · rw [raised, loop_raiseAtStart]
    obtain rfl | rfl := kind
    · exact ⟨_, rfl, .inr (.inl rfl)⟩
    · exact ⟨_, rfl, .inr (.inr rfl)⟩
  · have start := DecodeAt.beginDecode bs s w h ch cs
    rw [begun]
    obtain ⟨t, loop, ⟨pos, stands, full, within⟩ | ⟨failed, err⟩⟩ :=
      decodeLoop_ends (k := bs.length) start header (Nat.zero_le _) (by omega)
    · rw [loop, andThen_next, stands.finish full]
      refine ⟨_, rfl, .inl ⟨Image.ofState (afterEnd t), (afterEnd t).diag, rfl, ?_, stands.afterEnd_within within⟩⟩
      have size := full.trans stands.size.symm
      rw [afterEnd_eq]
      simpa [Image.ofState, State.npix] using size
    · rw [loop, andThen_next, finishDecode, if_neg (by simp [failed])]
      exact ⟨t, rfl, .inr (.inr (by simp [State.decodeAnswer, failed, err]))⟩

/-! ## What the loop keeps -/

/-- The header fields stay as the START left them (rule R36). -/
theorem decodeLoop_header {j : Nat} {d t : State} (loop : decodeLoop j d = .next t) :
    t.w = d.w ∧ t.h = d.h ∧ t.ch = d.ch ∧ t.cs = d.cs := by
  refine decodeLoop_induction (P := fun t => t.w = d.w ∧ t.h = d.h ∧ t.ch = d.ch ∧ t.cs = d.cs) (fun _ kept => kept)
    (fun i t kept => ?_) ⟨rfl, rfl, rfl, rfl⟩ loop
  rw [afterChunk_eq]
  exact kept

/-- `DIAG` before `DEC_END`: `END_BAD` is not set, and `RUN_OVERRUN` only where no pixel is left to produce (rule R107). -/
structure OverrunsLast (d : State) : Prop where
  endBad : d.diag.endBad = false
  overrun : d.diag.runOverrun = true → d.npix ≤ d.pixcnt

theorem OverrunsLast.of_clear {d : State} (clear : d.diag = ⟨false, false⟩) : OverrunsLast d :=
  ⟨by rw [clear], fun set => by rw [clear] at set; cases set⟩

theorem OverrunsLast.clear {d : State} (last : OverrunsLast d) (more : d.pixcnt < d.npix) : d.diag = ⟨false, false⟩ := by
  obtain ⟨endBad, overrun⟩ := last
  have noOverrun : d.diag.runOverrun = false := by
    by_contra set
    have := overrun (by simpa using set)
    omega
  exact congrArg₂ Diag.mk endBad noOverrun

/-- The run that asks for more pixels than remain produces all that remain. -/
theorem OverrunsLast.afterChunk {d : State} (last : OverrunsLast d) (i : Instr) : OverrunsLast (afterChunk i d) := by
  obtain ⟨endBad, overrun⟩ := last
  have more : d.npix ≤ d.pixcnt → d.npix ≤ d.pixcnt + (chunkPixels i d).length := fun full => by omega
  rw [afterChunk_eq]
  cases i with
  | run n =>
    constructor
    case endBad => simpa [beforeCommit] using endBad
    case overrun =>
      intro set
      show d.npix ≤ d.pixcnt + (List.replicate (min n (d.npix - d.pixcnt)) d.prev).length
      rw [List.length_replicate]
      simp only [beforeCommit, State.flagOverrun_runOverrun, Bool.or_eq_true, decide_eq_true_eq] at set
      obtain before | now := set
      · have := overrun before; omega
      · omega
  | _ => exact ⟨endBad, fun set => more (overrun set)⟩

theorem afterStart_of_startDecode {bs : List Byte} {u d0 : State} (start : startDecode bs u = .next d0) :
    d0 = afterStart bs u :=
  Host.Outcome.next.inj (start.symm.trans (startDecode_eq (startAdmitted_of_startDecode start) bs))

theorem LoopReaches.overrunsLast {bs : List Byte} {u d : State} (reached : LoopReaches bs u d) : OverrunsLast d := by
  obtain ⟨d0, j, start, -, loop⟩ := reached
  refine decodeLoop_induction (P := OverrunsLast) (fun _ last => ⟨last.endBad, last.overrun⟩)
    (fun i _ last => last.afterChunk i) (.of_clear ?_) loop
  rw [afterStart_of_startDecode start]
  exact afterStart_diag bs u

/-- Where the loop can end, it ends however many rounds more it may run. -/
theorem LoopReaches.eq_of_ended {bs : List Byte} {u d t : State} {k : Nat} (reached : LoopReaches bs u d)
    (ended : ¬ d.chunkAdmitted = true) (loop : decodeLoop k (afterStart bs u) = .next t) (ended' : ¬ t.chunkAdmitted = true) :
    d = t := by
  obtain ⟨d0, j, start, -, toEnd⟩ := reached
  rw [afterStart_of_startDecode start] at toEnd
  obtain ⟨m, rounds⟩ := decodeLoop_to_end loop toEnd ended
  rw [decodeLoop_of_not ended'] at rounds
  exact (Host.Outcome.next.inj rounds).symm

/-! ## The last chunk of an encoded stream sets no flag -/

/-- The loop over `bs` can end with all its pixels and no flag. -/
def EndsClear (bs : List Byte) (u : State) : Prop :=
  ∃ f, LoopReaches bs u f ∧ f.pixcnt = f.npix ∧ f.diag = ⟨false, false⟩

section
variable {bs after : List Byte} {u : State} {n pos : Nat}

/-- A chunk that produces just the pixels that remain, and sets no flag, ends the loop without one. -/
theorem DecodeAt.endsClear {d : State} {i : Instr} (stands : DecodeAt bs n pos d) (reached : LoopReaches bs u d)
    (more : d.pout.length < n) (wf : i.wf = true) (chunk : i.position = .chunk) (next : bs.drop pos = encode i ++ after)
    (whole : d.pout.length + (chunkPixels i d).length = n)
    (unflagged : (Machine.afterChunk i d).diag = d.diag) : EndsClear bs u := by
  obtain ⟨reached', stands'⟩ := stands.chunk reached more wf chunk next
  refine ⟨_, reached', ?_, ?_⟩
  · rw [stands'.size, stands'.pixels.counted, afterChunk_eq, List.length_append, whole]
  · rw [unflagged]
    exact reached.overrunsLast.clear (by rw [stands.size, stands.pixels.counted]; exact more)

/-- A run that is written before a chunk is decoded, if one is pending. -/
theorem Lags.flushPending {ps : List Pixel} {pending : Nat} (lags : Lags bs u n pos ps pending) (bound : pending ≤ 62)
    (room : ps.length ≤ n)
    (next : bs.drop pos = (if 0 < pending then encode (.run pending) else []) ++ after) :
    Lags bs u n (pos + (if 0 < pending then encode (.run pending) else []).length) ps 0 := by
  split at next
  case isTrue pends =>
    rw [if_pos pends]
    exact lags.flush pends bound room next
  case isFalse nothing =>
    rw [if_neg nothing]
    rwa [Nat.eq_zero_of_not_pos nothing] at lags

/-- The bytes of the last pixel are a run of just the pixels that remain, or end in a chunk of one pixel. -/
theorem Lags.endsClear {ps : List Pixel} {e : State} (lags : Lags bs u n pos ps e.run) (cache : e.cache = cacheAfter ps)
    (prev : e.prev = prevAfter ps) (bound : e.run ≤ 61) (last : ps.length + 1 = n) (ends : e.pixcnt + 1 = e.npix) {p : Pixel}
    (next : bs.drop pos = pixelBytes p e ++ after) : EndsClear bs u := by
  unfold pixelBytes at next
  by_cases repeats : p = e.prev
  case pos =>
    rw [if_pos repeats, if_pos (.inr ends)] at next
    obtain ⟨d, reached, stands, lag⟩ := lags
    have length : d.pout.length + e.run = ps.length := by simpa using congrArg List.length lag
    have fits : d.pixcnt + (e.run + 1) ≤ d.npix := by rw [stands.pixels.counted, stands.size]; omega
    refine stands.endsClear reached (by omega) (by simp [Instr.wf]; omega) rfl next ?_ (afterChunk_run_diag fits)
    rw [chunkPixels_run fits, List.length_replicate]
    omega
  case neg =>
    rw [if_neg repeats, List.append_assoc] at next
    obtain ⟨d, reached, stands, lag⟩ := lags.flushPending (by omega) (by omega) next
    rw [List.replicate_zero, List.append_nil] at lag
    subst lag
    obtain ⟨wf, chunk⟩ := chooseChunk_wf p e
    have produced : chunkPixels (e.chooseChunk p) d = [p] :=
      chunkPixels_chooseChunk (stands.pixels.cache.trans cache.symm) (stands.pixels.prev.trans prev.symm) p
    refine stands.endsClear reached (by omega) wf chunk (drop_past next) ?_ ?_
    · rw [produced, List.length_singleton, last]
    · rw [afterChunk_eq, beforeCommit_chooseChunk]

end

/-- The loop over an encoded stream can end with all its pixels and no flag, whatever follows the last chunk. -/
theorem emitted_endsClear {img : Image} {s u e : State} (wf : img.wf = true) (admitted : u.startAdmitted = true)
    (magic : u.cfg.magic = s.cfg.magic) (run : runCommands (img.commandsTo img.pix.length) s = .next e) (rest : List Byte) :
    EndsClear (e.out.bytes ++ rest) u := by
  obtain ⟨channels, colorspace, size, -⟩ := (Image.wf_iff img).mp wf
  cases count : img.pix.length with
  | zero =>
    have start := startDecode_eq admitted (e.out.bytes ++ rest)
    obtain ⟨-, chunks, out⟩ := commandsTo_out le_rfl run
    rw [afterStart_header (w := img.w) (h := img.h) channels colorspace (chunks ++ rest)
      (by rw [magic, out, Memory.bytes_ofBytes, List.append_assoc])] at start
    exact ⟨_, ⟨_, 0, start, .beginDecode _ _ _ _ _, rfl⟩, count.symm.trans size, rfl⟩
  | succ k =>
    have more : k < img.pix.length := by omega
    rw [count] at run
    obtain ⟨e', before, -, rfl⟩ := commandsTo_succ_next more run
    have now := encodeAt_of_commandsTo more.le before
    have lags := emitted_lags wf admitted magic more.le before (pixelBytes (forceAlpha e'.ch img.pix[k]) e' ++ rest)
    rw [encodePixel_out, Memory.bytes_append, List.append_assoc]
    refine lags.endsClear now.cache now.prev now.inv.runBound ?_ ?_ List.drop_left
    · exact (congrArg (· + 1) (img.pixelsTo_length more.le)).trans count.symm
    · rw [now.counted, now.size, ← size, count]

/-! ## The round trip (rule R168) -/

/-- The pixels of a well-formed Image are their own, alpha forced or not (D11). -/
theorem Image.forceAlpha_pix {img : Image} (wf : img.wf = true) : img.pix.map (forceAlpha img.ch) = img.pix := by
  obtain ⟨-, -, -, opaqueAlpha⟩ := (Image.wf_iff img).mp wf
  refine (List.map_congr_left fun p mem => ?_).trans (List.map_id _)
  rw [forceAlpha]
  split
  case isTrue three => rw [← opaqueAlpha three p mem]; rfl
  case isFalse => rfl

/-- Where the trailer stands next, it is consumed and no flag is set (rule R161). -/
theorem afterEnd_of_trailer {d : State} (found : d.input.window d.ipos Config.trailerLen = Config.trailer) :
    afterEnd d = { d with phase := .done, ipos := d.ipos + 8 } := by
  rw [afterEnd_eq, found, if_pos rfl]
  rfl

/-- The decode loop of an encoded stream stands before the trailer, with the pixels of the Image and no flag. -/
theorem decodeLoop_encoded {img : Image} {s u e : State} (wf : img.wf = true) (admitted : u.startAdmitted = true)
    (magic : u.cfg.magic = s.cfg.magic) (run : runCommands (img.commandsTo img.pix.length) s = .next e) (rest : List Byte) :
    ∃ f, decodeLoop (e.out.bytes ++ rest).length (afterStart (e.out.bytes ++ rest) u) = .next f ∧
      DecodeAt (e.out.bytes ++ rest) img.pix.length e.out.bytes.length f ∧
      f.pout = img.pixelsTo img.pix.length ∧ f.diag = ⟨false, false⟩ ∧
      f.w = img.w ∧ f.h = img.h ∧ f.ch = img.ch ∧ f.cs = img.cs := by
  obtain ⟨channels, colorspace, size, -⟩ := (Image.wf_iff img).mp wf
  obtain ⟨-, chunks, out⟩ := commandsTo_out le_rfl run
  have header : e.out.bytes ++ rest = encode (.header u.cfg.magic img.w img.h img.ch img.cs) ++ (chunks ++ rest) := by
    rw [magic, out, Memory.bytes_ofBytes, List.append_assoc]
  have whole := encodeAt_of_commandsTo le_rfl run
  have flushed : e.run = 0 := whole.inv.runFlushed (by rw [whole.counted, whole.size, size])
  obtain ⟨f, reached, stands, lag⟩ := emitted_lags wf admitted magic le_rfl run rest
  obtain ⟨f', reached', full', clear⟩ := emitted_endsClear wf admitted magic run rest
  rw [flushed, List.replicate_zero, List.append_nil] at lag
  have ended : ¬ f.chunkAdmitted = true := by
    simp [stands.size, stands.pixels.counted, lag, img.pixelsTo_length le_rfl]
  have begun := afterStart_header channels colorspace (chunks ++ rest) header
  have long : 14 ≤ (e.out.bytes ++ rest).length := by
    rw [header, List.length_append, Laws.encode_length]
    exact Nat.le_add_right _ _
  obtain ⟨t, loop, ends⟩ := decodeLoop_ends (k := (e.out.bytes ++ rest).length)
    (DecodeAt.beginDecode (e.out.bytes ++ rest) u img.w img.h img.ch img.cs) long (Nat.zero_le _) (by omega)
  rw [← begun] at loop
  cases reached.eq_of_ended ended loop ends.not_admitted
  cases reached'.eq_of_ended (by simp [full']) loop ends.not_admitted
  refine ⟨f, loop, stands, lag, clear, ?_⟩
  rw [begun] at loop
  exact decodeLoop_header loop

/-- Settles O35: the loop ends before the trailer with all pixels and no flag, and `DEC_END` finds the trailer. -/
theorem decodeOfEncodeIsImage : Obligations.DecodeOfEncodeIsImage := by
  intro img s e u wf encoded phase magic
  have admitted := (startAdmitted_iff u).mpr phase
  obtain ⟨e', run, rfl⟩ := encodeImage_next encoded
  have bytes : (afterTrailer e').out.bytes = e'.out.bytes ++ encode .endMarker := Memory.bytes_append _ _
  obtain ⟨f, loop, stands, produced, clear, w, h, ch, cs⟩ := decodeLoop_encoded wf admitted magic run (encode .endMarker)
  have full : f.pout.length = img.pix.length := by rw [produced, img.pixelsTo_length le_rfl]
  have trailer : f.input.window f.ipos Config.trailerLen = Config.trailer := by
    rw [stands.input, stands.position]
    exact window_item (i := .endMarker) (after := []) (Memory.ofBytes_dense _)
      (by rw [Memory.bytes_ofBytes, List.drop_left, List.append_nil]) (Nat.le_refl 8)
  refine ⟨afterEnd f, ?_, ?_, ?_⟩
  · rw [bytes, decodeStream_eq admitted, loop, andThen_next, stands.finish full]
  · have image : Image.ofState f = img := by
      rw [Image.ofState, w, h, ch, cs, produced, Image.pixelsTo, List.take_length, img.forceAlpha_pix wf,
        img.forceAlpha_pix wf]
    rw [afterEnd_of_trailer trailer]
    exact congrArg some (congrArg₂ DecodeAnswer.image image clear)
  · rw [afterEnd_of_trailer trailer, bytes, List.length_append, stands.position]
    rfl

end Sys2Proof.Machine
end

section
/-! Errors (spec/60_exceptions.md): which commands raise one, what clears it, and that the internal one cannot occur. -/

namespace Sys2Proof.Machine

/-- The commands that start anew: `RESET` and the two STARTs (rule R189). -/
def Command.Restarts (c : Command) : Prop := c = .reset ∨ c = .decStart ∨ ∃ w h ch cs, c = .encStart w h ch cs

/-- The error is one that the command can raise (rules R181, R182). -/
def Command.Raises (c : Command) (e : Err) : Prop :=
  (e = .format ∧ c = .decStart) ∨ (e = .truncated ∧ (c = .decStart ∨ c = .decChunk))

/-- What a command makes of `ERR` and `FAILED`: inside a pass it leaves them alone, a restart
clears them, or it raises. -/
theorem CommandStep.error_cases {s t : State} {c : Command} (taken : CommandStep s c t) :
    (t.err = s.err ∧ s.phase ≠ .failed ∧ t.phase ≠ .failed) ∨
    (c.Restarts ∧ t.err = .none ∧ t.phase ≠ .failed) ∨
    (c.Raises t.err ∧ t.phase = .failed) := by
  cases taken with
  | reset => exact .inr (.inl ⟨.inl rfl, rfl, nofun⟩)
  | encStart => exact .inr (.inl ⟨.inr (.inr ⟨_, _, _, _, rfl⟩), rfl, nofun⟩)
  | headerAccepted => exact .inr (.inl ⟨.inr (.inl rfl), rfl, nofun⟩)
  | headerRaises _ kind => exact .inr (.inr ⟨kind.imp (⟨·, rfl⟩) (⟨·, .inl rfl⟩), rfl⟩)
  | chunkRaises => exact .inr (.inr ⟨.inr ⟨rfl, .inr rfl⟩, rfl⟩)
  | encPixel admitted =>
    have phase := ((pixelAdmitted_iff s).mp admitted).1
    exact .inl (by simp [phase])
  | encEnd admitted =>
    have phase := ((encEndAdmitted_iff s).mp admitted).1
    exact .inl (by simp [afterTrailer, phase])
  | chunk admitted =>
    have phase := ((chunkAdmitted_iff s).mp admitted).1
    exact .inl (by simp [afterChunk_eq, phase])
  | decEnd admitted =>
    have phase := ((decEndAdmitted_iff s).mp admitted).1
    exact .inl (by simp [afterEnd_eq, phase])

/-- Settles O46: only the third way of `CommandStep.error_cases` raises. -/
theorem errorsRaisedByListedCommands : Obligations.ErrorsRaisedByListedCommands := by
  intro c s t h
  obtain ⟨kept, -, running⟩ | ⟨-, cleared, running⟩ | ⟨raises, -⟩ := (commandStep_of_next h).error_cases
  · rw [kept]
    exact ⟨absurd, absurd, fun failed => absurd failed running⟩
  · rw [cleared]
    exact ⟨nofun, nofun, fun failed => absurd failed running⟩
  · obtain ⟨kind, rfl⟩ | ⟨kind, from_decoder⟩ := raises
    · exact ⟨fun _ _ => rfl, fun _ _ => .inl rfl, fun _ _ => .inl rfl⟩
    · exact ⟨fun format => absurd (kind.symm.trans format) nofun, fun _ _ => from_decoder, fun _ _ => from_decoder⟩

/-- Settles O45: where a step leaves `FAILED`, it is a command that restarts. -/
theorem failedLeftOnlyByRestart : Obligations.FailedLeftOnlyByRestart := by
  intro s t failed h left
  obtain ⟨-, rfl⟩ | ⟨bs, rest, -, -, rfl⟩ | ⟨c, rest, next, taken⟩ := step_cases h
  · exact absurd failed left
  · exact absurd failed left
  · rw [next]
    obtain ⟨-, running, -⟩ | ⟨restarts, cleared, -⟩ | ⟨-, stays⟩ := taken.error_cases
    · exact absurd failed running
    · refine ⟨cleared, rest, ?_⟩
      obtain rfl | rfl | ⟨w, hgt, ch, cs, rfl⟩ := restarts
      · exact .inl rfl
      · exact .inr (.inl rfl)
      · exact .inr (.inr ⟨w, hgt, ch, cs, rfl⟩)
    · exact absurd stays left

/-- A command completes or is refused (rules R151, R152). -/
theorem runCommand_no_fault (c : Command) (s : State) (f : Fault) : runCommand c s ≠ .fault f := by
  by_cases admitted : c.admitted s
  · obtain ⟨t, completes⟩ := Command.completes_of_admitted admitted
    simp [completes]
  · obtain ⟨r, refused⟩ := Command.refused_of_not_admitted admitted
    simp [refused]

theorem step_no_fault (s : State) : NoFault s := by
  intro f
  cases next : s.moves with
  | nil => simp [step, runStep, next]
  | cons m rest =>
    cases m with
    | issue c =>
      rw [step_issue next]
      exact runCommand_no_fault c _ f
    | present bs =>
      rw [step_present next, presentInput]
      split <;> nofun

/-- Settles O47: no command faults, and the errors a command can raise are the two listed ones. -/
theorem internalErrorUnreachable : Obligations.InternalErrorUnreachable := by
  refine ⟨step_no_fault, fun s t before h => ?_⟩
  obtain ⟨-, rfl⟩ | ⟨bs, rest, -, -, rfl⟩ | ⟨c, rest, -, taken⟩ := step_cases h
  · exact before
  · exact before
  · obtain ⟨kept, -, -⟩ | ⟨-, cleared, -⟩ | ⟨⟨kind, -⟩ | ⟨kind, -⟩, -⟩ := taken.error_cases
    · exact kept ▸ before
    · simp [cleared]
    · simp [kind]
    · simp [kind]

end Sys2Proof.Machine
end

section
/-! A set of instances (rule R204): power-on, moves that touch one of them alone, and the product of them all. -/

namespace Sys2Proof.Machine

/-! ## Power-on (rule R210) -/

/-- At each place the parameters are those at that place of the list. -/
theorem System.powerOnFrom_getElem? (n k : Nat) (cfgs : List Config) :
    (System.powerOnFrom n cfgs)[k]? = cfgs[k]?.map (State.powerOn (n + k)) := by
  induction cfgs generalizing n k with
  | nil => rfl
  | cons cfg cfgs ih =>
    cases k with
    | zero => rfl
    | succ k =>
      rw [System.powerOnFrom, List.getElem?_cons_succ, List.getElem?_cons_succ, ih, Nat.add_right_comm, Nat.add_assoc]

theorem System.powerOnFrom_length (n : Nat) (cfgs : List Config) :
    (System.powerOnFrom n cfgs).length = cfgs.length := by
  induction cfgs generalizing n with
  | nil => rfl
  | cons cfg cfgs ih => rw [System.powerOnFrom, List.length_cons, ih, List.length_cons]

/-- Outside a pass the invariant speaks of no parameter and no free value. -/
theorem Inv.powerOn (k : Nat) (cfg : Config) : Inv (State.powerOn k cfg) :=
  invariantAtReset.of_no_pass rfl rfl rfl nofun nofun invariantAtReset.errorPhase invariantAtReset.noInternal

/-- Settles O51: at each place stands `State.powerOn` of the parameters there. -/
theorem instancesPowerOnIdle : Obligations.InstancesPowerOnIdle := by
  refine fun cfgs => ⟨System.powerOnFrom_length 0 cfgs, fun k cfg own => ?_⟩
  refine ⟨State.powerOn (0 + k) cfg, ?_, rfl, rfl, rfl, rfl, Inv.powerOn _ cfg⟩
  rw [System.powerOn, System.powerOnFrom_getElem?, own]
  rfl

/-! ## One move (rules R55, R204) -/

theorem System.actAt_next {f : State → Host.Outcome State Fault Refusal} {k : Nat} {sys : System} {s t : State}
    (there : sys[k]? = some s) (h : f s = .next t) : System.actAt f k sys = .next (sys.set k t) := by
  rw [System.actAt_of_some there, h]

theorem System.actAt_refused {f : State → Host.Outcome State Fault Refusal} {k : Nat} {sys : System} {s : State}
    {r : Refusal} (there : sys[k]? = some s) (h : f s = .refused r) : System.actAt f k sys = .refused r := by
  rw [System.actAt_of_some there, h]

/-- Feeding presents what the giver has emitted so far. -/
theorem System.feed_of_some {i j : Nat} {sys : System} {s : State} (there : sys[i]? = some s) :
    System.feed i j sys = System.actAt (presentInput s.out.bytes) j sys := by
  rw [System.feed, there]

/-- Settles O52: both moves act at one place. -/
theorem instanceMoveTouchesNoOther : Obligations.InstanceMoveTouchesNoOther := by
  refine ⟨fun k sys s there => ⟨fun t => System.actAt_next there, fun r => System.actAt_refused there⟩,
    fun k sys sys' h => ⟨System.actAt_length h, fun j => System.actAt_other h⟩,
    fun i j sys s u giver receiver => ?_⟩
  rw [System.feed_of_some giver]
  constructor
  · intro noDec
    exact ⟨{ u with input := Memory.ofBytes s.out.bytes }, System.actAt_next receiver (if_neg noDec),
      Memory.bytes_ofBytes _, Memory.read_ofBytes _, rfl⟩
  · intro dec
    exact System.actAt_refused receiver (if_pos dec)

/-! ## Interleavings (rule R204) -/

/-- `sys'` is `sys` after each of its instances has made, alone, as many steps as `ks` names it. -/
def System.StepAlone (ks : List Nat) (sys sys' : System) : Prop :=
  sys'.length = sys.length ∧
  ∀ (k : Nat) (s : State), sys[k]? = some s → ∃ t, runSteps (ks.count k) s = .next t ∧ sys'[k]? = some t

/-- Only how often the instances that are there are named counts. -/
theorem System.stepAlone_congr {ks ls : List Nat} {sys : System}
    (same : ∀ k, k < sys.length → ks.count k = ls.count k) (sys' : System) :
    System.StepAlone ks sys sys' ↔ System.StepAlone ls sys sys' := by
  refine and_congr_right' (forall₃_congr fun k s there => ?_)
  obtain ⟨within, -⟩ := List.getElem?_eq_some_iff.mp there
  rw [same k within]

/-- Without a step all are as they were. -/
theorem System.stepAlone_nil (sys sys' : System) : System.StepAlone [] sys sys' ↔ sys' = sys := by
  constructor
  · rintro ⟨length, alone⟩
    refine List.ext_getElem? fun k => ?_
    cases there : sys[k]? with
    | none => rwa [List.getElem?_eq_none_iff, length, ← List.getElem?_eq_none_iff]
    | some s =>
      obtain ⟨t, stays, there'⟩ := alone k s there
      cases stays
      exact there'
  · rintro rfl
    exact ⟨rfl, fun k s there => ⟨s, rfl, there⟩⟩

theorem runSteps_succ_eq_next (n : Nat) (s t : State) :
    runSteps (n + 1) s = .next t ↔ ∃ u, step s = .next u ∧ runSteps n u = .next t := by
  rw [runSteps_succ]
  constructor
  · exact andThen_eq_next
  · rintro ⟨u, first, others⟩
    rw [first, andThen_next, others]

/-- One step more of `k` can be made first: it is one of `k` alone, and the others' shares are as before. -/
theorem System.stepAlone_cons {k : Nat} {sys : System} {s : State} (there : sys[k]? = some s) (ks : List Nat)
    (sys' : System) :
    System.StepAlone (k :: ks) sys sys' ↔ ∃ u, step s = .next u ∧ System.StepAlone ks (sys.set k u) sys' := by
  obtain ⟨within, -⟩ := List.getElem?_eq_some_iff.mp there
  constructor
  · rintro ⟨length, alone⟩
    obtain ⟨t, run, there'⟩ := alone k s there
    rw [List.count_cons_self, runSteps_succ_eq_next] at run
    obtain ⟨u, first, others⟩ := run
    refine ⟨u, first, by rw [length, List.length_set], fun j v at_j => ?_⟩
    by_cases same : j = k
    · subst same
      rw [List.getElem?_set_self within] at at_j
      cases at_j
      exact ⟨t, others, there'⟩
    · rw [List.getElem?_set_ne (Ne.symm same)] at at_j
      rw [← List.count_cons_of_ne (Ne.symm same)]
      exact alone j v at_j
  · rintro ⟨u, first, length, alone⟩
    refine ⟨by rw [length, List.length_set], fun j v at_j => ?_⟩
    by_cases same : j = k
    · subst same
      cases there.symm.trans at_j
      obtain ⟨t, others, there'⟩ := alone j u (List.getElem?_set_self within)
      exact ⟨t, by rw [List.count_cons_self, runSteps_succ_eq_next]; exact ⟨u, first, others⟩, there'⟩
    · rw [List.count_cons_of_ne (Ne.symm same)]
      exact alone j v (by rw [List.getElem?_set_ne (Ne.symm same)]; exact at_j)

/-- An interleaving that begins with `k` reaches what the others reach after a step of `k`. -/
theorem System.interleave_cons_eq_next {k : Nat} {sys : System} {s : State} (there : sys[k]? = some s) (ks : List Nat)
    (sys' : System) :
    System.interleave (k :: ks) sys = .next sys' ↔
      ∃ u, step s = .next u ∧ System.interleave ks (sys.set k u) = .next sys' := by
  rw [System.interleave_cons, System.stepAt, System.actAt_of_some there]
  cases step s <;> simp

/-- An induction over the interleaving: its first step is the first of the share of the one it names. -/
theorem System.interleave_eq_next_iff (ks : List Nat) (sys sys' : System) :
    System.interleave ks sys = .next sys' ↔ System.StepAlone ks sys sys' := by
  induction ks generalizing sys with
  | nil =>
    calc System.interleave [] sys = .next sys' ↔ sys' = sys := ⟨fun h => by cases h; rfl, fun h => h ▸ rfl⟩
      _ ↔ System.StepAlone [] sys sys' := (System.stepAlone_nil sys sys').symm
  | cons k ks ih =>
    cases there : sys[k]? with
    | none =>
      have absent : ∀ j, j < sys.length → ks.count j = (k :: ks).count j := fun j within => by
        have past := List.getElem?_eq_none_iff.mp there
        exact (List.count_cons_of_ne (by omega)).symm
      calc System.interleave (k :: ks) sys = .next sys'
          ↔ System.interleave ks sys = .next sys' := by
            rw [System.interleave_cons, System.stepAt, System.actAt_of_none there]
        _ ↔ System.StepAlone ks sys sys' := ih sys
        _ ↔ System.StepAlone (k :: ks) sys sys' := System.stepAlone_congr absent sys'
    | some s =>
      rw [System.interleave_cons_eq_next there, System.stepAlone_cons there]
      exact exists_congr fun u => and_congr_right' (ih _)

/-- Settles O53: the steps of each are its own, in whatever order they are interleaved. -/
theorem systemIsProductOfInstances : Obligations.SystemIsProductOfInstances :=
  System.interleave_eq_next_iff

/-- Settles O54: of an interleaving only the shares count. -/
theorem interleavingsAgree : Obligations.InterleavingsAgree := by
  intro ks ls sys same sys'
  rw [System.interleave_eq_next_iff, System.interleave_eq_next_iff]
  exact System.stepAlone_congr same sys'

end Sys2Proof.Machine
end
